-- ==== Sys2Proof/Word.lean ====
section
/-! DEFINITION. The one word of this hardware: registers, memory cells, addresses, immediates and
opcodes are all unsigned 8-bit values (spec 00_scope.md R4, R7; 20_memory.md R35). -/

namespace Sys2Proof

/-- An unsigned 8-bit value, bit 0 the least significant (00_scope.md R7). -/
abbrev Byte := BitVec 8

end Sys2Proof
end

