-- ==== Sys2Proof/Syntax.lean ====
section
/-! DEFINITION. The 15 instructions of spec/opcode_table.json (30_encoding.md R52, R55), one
constructor a row. An operand is its whole operand byte (30_encoding.md R53, R54): the decoder accepts
any value, and whether a register operand names a register is checked at execution (R57). -/

namespace Sys2Proof

/-- An instruction. `a` and `b` are register operand bytes, `imm` an immediate byte. -/
inductive Instr where
  /-- LDI a, imm (41_load_immediate.md R90). -/
  | ldi (a imm : Byte)
  /-- ADD a, b (42_alu.md R108). -/
  | add (a b : Byte)
  /-- SUB a, b (42_alu.md R109). -/
  | sub (a b : Byte)
  /-- MUL a, b (42_alu.md R110). -/
  | mul (a b : Byte)
  /-- DIV a, b (42_alu.md R111). -/
  | div (a b : Byte)
  /-- CMP a, b (42_alu.md R112). -/
  | cmp (a b : Byte)
  /-- INC a (42_alu.md R113). -/
  | inc (a : Byte)
  /-- DEC a (42_alu.md R114). -/
  | dec (a : Byte)
  /-- PUSH a (43_stack.md R121). -/
  | push (a : Byte)
  /-- POP a (43_stack.md R123). -/
  | pop (a : Byte)
  /-- PRN a (44_output.md R130). -/
  | prn (a : Byte)
  /-- JMP a (45_branch.md R141). -/
  | jmp (a : Byte)
  /-- JEQ a (45_branch.md R142). -/
  | jeq (a : Byte)
  /-- JNE a (45_branch.md R143). -/
  | jne (a : Byte)
  /-- HLT (46_halt.md R150). -/
  | hlt
  deriving DecidableEq, Repr

end Sys2Proof
end

