-- ==== Sys2Proof/Decode.lean ====
section
/-! DEFINITION. The opcode map, the decoder and the encoder (spec 30_encoding.md R50 to R58).
The 15 opcode values are the spec's decision D1, from general knowledge (notes/assumptions/3.md). -/

namespace Sys2Proof

/-- Why the decoder refuses bytes: the opcode byte has no handler (30_encoding.md R58). -/
inductive DecodeReject where
  /-- The unrecognised opcode byte (40_step_cycle.md R72). -/
  | invalidOpcode (op : Byte)
  deriving DecidableEq, Repr

/-- The dispatch table: each opcode byte with the instruction it makes of operandA and operandB
(30_encoding.md R52, R55). -/
def dispatchTable : List (Byte × (Byte → Byte → Instr)) :=
  [ (0x99, fun a imm => .ldi a imm),
    (0xA8, fun a b => .add a b),
    (0xA9, fun a b => .sub a b),
    (0xAA, fun a b => .mul a b),
    (0xAB, fun a b => .div a b),
    (0xA0, fun a b => .cmp a b),
    (0x78, fun a _ => .inc a),
    (0x79, fun a _ => .dec a) ] ++
  [ (0x4D, fun a _ => .push a),
    (0x4C, fun a _ => .pop a),
    (0x43, fun a _ => .prn a),
    (0x50, fun a _ => .jmp a),
    (0x51, fun a _ => .jeq a),
    (0x52, fun a _ => .jne a),
    (0x01, fun _ _ => .hlt) ]

/-- Decode an opcode byte with the two bytes that follow it: exact match of the whole opcode byte,
operand bytes unconstrained, rejected by name otherwise (30_encoding.md R57, R58; 40_step_cycle.md R72). -/
def decode (op operandA operandB : Byte) : Except DecodeReject Instr :=
  match dispatchTable.find? (fun row => row.1 == op) with
  | some row => .ok (row.2 operandA operandB)
  | none => .error (.invalidOpcode op)

/-- The operand count `nops` of an opcode byte, its bits 7 to 6 (30_encoding.md R50, R51). -/
def operandCount (op : Byte) : BitVec 2 := op.extractLsb' 6 2

/-- The opcode byte of an instruction (30_encoding.md R55). -/
def Instr.opcode : Instr → Byte
  | .ldi _ _ => 0x99
  | .add _ _ => 0xA8
  | .sub _ _ => 0xA9
  | .mul _ _ => 0xAA
  | .div _ _ => 0xAB
  | .cmp _ _ => 0xA0
  | .inc _ => 0x78
  | .dec _ => 0x79
  | .push _ => 0x4D
  | .pop _ => 0x4C
  | .prn _ => 0x43
  | .jmp _ => 0x50
  | .jeq _ => 0x51
  | .jne _ => 0x52
  | .hlt => 0x01

/-- The operand bytes that belong to an instruction, operandA first (30_encoding.md R52). -/
def Instr.operandBytes : Instr → List Byte
  | .ldi a imm => [a, imm]
  | .add a b => [a, b]
  | .sub a b => [a, b]
  | .mul a b => [a, b]
  | .div a b => [a, b]
  | .cmp a b => [a, b]
  | .inc a => [a]
  | .dec a => [a]
  | .push a => [a]
  | .pop a => [a]
  | .prn a => [a]
  | .jmp a => [a]
  | .jeq a => [a]
  | .jne a => [a]
  | .hlt => []

/-- The bytes of an instruction in ascending address order (20_memory.md R35; 30_encoding.md R52). -/
def encode (i : Instr) : List Byte := i.opcode :: i.operandBytes

/-- Byte `k` of a number whose bit 0 is the least significant bit of the first byte. -/
def tableByte (k w : Nat) : Byte := BitVec.ofNat 8 (w / 256 ^ k)

/-- The instruction the decoder reads from an instruction whose bits are `w`, numbered as
spec/opcode_table.json numbers them; every bit above `nbits` is 0. -/
def decodeTableWord (nbits w : Nat) : Option Instr :=
  let bits := w % 2 ^ nbits
  match decode (tableByte 0 bits) (tableByte 1 bits) (tableByte 2 bits) with
  | .ok i => some i
  | .error _ => none

end Sys2Proof
end

