-- ==== Sys2Proof/Machine/Flags.lean ====
section
/-! DEFINITION. The flag register FL: its three bits, the compare outputs of the ALU and the one way
FL is written (spec 10_state.md R16, R17; 42_alu.md R107). -/

namespace Sys2Proof.Machine

/-- E, Equal: `fl[0]` (10_state.md R16). -/
def flagE (fl : Byte) : Bool := fl.getLsbD 0

/-- G, Greater-than: `fl[1]` (10_state.md R16). -/
def flagG (fl : Byte) : Bool := fl.getLsbD 1

/-- L, Less-than: `fl[2]` (10_state.md R16). -/
def flagL (fl : Byte) : Bool := fl.getLsbD 2

/-- The ALU's compare outputs `{L, G, E}`, comparing as unsigned integers (42_alu.md R107). -/
def compareEgl (valA valB : Byte) : BitVec 3 :=
  BitVec.ofBool (decide (valA.toNat < valB.toNat)) ++
    (BitVec.ofBool (decide (valA.toNat > valB.toNat)) ++
      BitVec.ofBool (decide (valA.toNat = valB.toNat)))

/-- FL after CMP: bits 2 to 0 replaced, bits 7 to 3 kept: `(fl & 0xF8) | (L << 2) | (G << 1) | E`
(42_alu.md R107, decision D8). -/
def writeEgl (fl : Byte) (egl : BitVec 3) : Byte := (fl &&& 0xF8) ||| egl.setWidth 8

end Sys2Proof.Machine
end

