-- ==== Sys2Proof/Machine/AluUnit.lean ====
section
/-! DEFINITION. The combinational `8bit_alu` (spec 42_alu.md R100 to R107). Each operation computes
the mathematical result of the unsigned operands and brings it back to 8 bits. -/

namespace Sys2Proof.Machine

/-- ALU ADD: `(valA + valB) & 0xFF` (42_alu.md R101). -/
def aluAdd (valA valB : Byte) : Byte := BitVec.ofNat 8 (valA.toNat + valB.toNat)

/-- ALU SUB: `(valA - valB) & 0xFF` with the mathematical difference (42_alu.md R102). -/
def aluSub (valA valB : Byte) : Byte := BitVec.ofInt 8 ((valA.toNat : Int) - (valB.toNat : Int))

/-- ALU MUL: the low 8 bits of the unsigned product (42_alu.md R103). -/
def aluMul (valA valB : Byte) : Byte := BitVec.ofNat 8 (valA.toNat * valB.toNat)

/-- ALU DIV: the unsigned quotient rounded toward zero; no result when the divisor is 0, where
`div0` is asserted (42_alu.md R104, decision D3). -/
def aluDiv (valA valB : Byte) : Option Byte :=
  if valB.toNat = 0 then none else some (BitVec.ofNat 8 (valA.toNat / valB.toNat))

/-- ALU INC: `(valA + 1) & 0xFF` (42_alu.md R105). -/
def aluInc (valA : Byte) : Byte := BitVec.ofNat 8 (valA.toNat + 1)

/-- ALU DEC: `(valA - 1) & 0xFF` (42_alu.md R106). -/
def aluDec (valA : Byte) : Byte := BitVec.ofInt 8 ((valA.toNat : Int) - 1)

/-- The closed set of operation tags (42_alu.md R100). -/
inductive AluOp where
  | add | sub | mul | div | inc | dec | cmp
  deriving DecidableEq, Repr

/-- What the ALU puts out: `result` for every op but CMP, `egl` for CMP, `div0` for a DIV by zero
(42_alu.md R100). -/
inductive AluOut where
  | result (v : Byte)
  | egl (f : BitVec 3)
  | div0
  deriving DecidableEq, Repr

/-- The ALU's single entry point; INC and DEC do not look at `valB` (42_alu.md R100). -/
def alu (op : AluOp) (valA valB : Byte) : AluOut :=
  match op with
  | .add => .result (aluAdd valA valB)
  | .sub => .result (aluSub valA valB)
  | .mul => .result (aluMul valA valB)
  | .div =>
    match aluDiv valA valB with
    | some q => .result q
    | none => .div0
  | .inc => .result (aluInc valA)
  | .dec => .result (aluDec valA)
  | .cmp => .egl (compareEgl valA valB)

end Sys2Proof.Machine
end

