-- ==== Sys2Proof/Config.lean ====
section
/-! DEFINITION. The parameters of the hardware that spec 00_scope.md R4 names as constants.
`OPCODE_MAP` stands in Decode.lean, beside the decoder; `INIT_MEM` is the memory of the state a run starts from. -/

namespace Sys2Proof.Config

/-- `SP_INDEX`: the register PUSH and POP use as stack pointer (00_scope.md R4; 10_state.md R11). -/
def spIndex : Fin 8 := 7

/-- `SP_RESET`: the reset value of register 7 (00_scope.md R4; 10_state.md R22; 91_not_in_source.md N14). -/
def spReset : Byte := 0xF3

/-- `LOAD_ORIGIN`: the address of the first image byte and the reset value of PC (00_scope.md R4). -/
def loadOrigin : Byte := 0x00

/-- `MEM_SIZE`: the number of memory cells (00_scope.md R4; 20_memory.md R30). -/
def memSize : Nat := 256

/-- What a cell reads as when neither the loader nor a PUSH has written it.
DESIGN CHOICE (unsafe, notes/assumptions/1.md): the spec leaves the content open (D10), and its loader
convention is 0x00 (70_reset_and_hazards.md R184). -/
def unlistedByte : Byte := 0x00

end Sys2Proof.Config
end

