-- ==== Sys2Proof/Machine/State.lean ====
section
/-! DEFINITION. Every piece of state spec/ gives the machine (10_state.md R10 to R20; INVENTORY.md,
State), as plain data, and its reset value (10_state.md R22). -/

namespace Sys2Proof.Machine

/-- The reasons the machine could stop without a next state: none. The spec's three faults are
exceptions whose entry it describes (60_exceptions.md R162), so they are next states in which the run
state is Halted and the fault record says why (`FaultKind`, `raise`); 20_memory.md R39 forbids a bounds
fault. No constructor, so nobody raises one (safe, notes/assumptions/4.md). -/
inductive Fault where
  deriving DecidableEq, Repr

/-- The reasons an instruction could be refused. -/
inductive Refusal where
  /-- Raised by an arm of `exec` whose instruction has no meaning yet; no arm of this model is one (safe). -/
  | notModelled (mnemonic : String)
  deriving DecidableEq, Repr

/-- The run state: the two externally visible states (10_state.md R18). -/
inductive RunState where
  /-- Steps are accepted. -/
  | running
  /-- Final until reset. -/
  | halted
  deriving DecidableEq, Repr

/-- The three synchronous faults of the hardware (60_exceptions.md R160). -/
inductive FaultKind where
  /-- The opcode byte has no handler (60_exceptions.md R163). -/
  | invalidOpcode
  /-- DIV with a divisor register that holds 0 (60_exceptions.md R164). -/
  | divisionByZero
  /-- A register operand byte above 7 (60_exceptions.md R165). -/
  | regIndexFault
  deriving DecidableEq, Repr

/-- The contents of memory: the cells that differ from `Config.unlistedByte`, each with its address
(20_memory.md R30; notes/assumptions/1.md). -/
abbrev Memory := List Host.Cell

/-- The one canonical form: addresses strictly rising and inside the 256 cells, and no cell listed
that equals what an unlisted cell reads as, so that equal memories are equal lists. -/
abbrev Memory.wf (m : Memory) : Prop :=
  m.Pairwise (fun c d => c.1 < d.1) ∧ ∀ c ∈ m, c.1 < Config.memSize ∧ c.2 ≠ Config.unlistedByte

/-- The machine's state (10_state.md; 60_exceptions.md R161). -/
structure State where
  /-- `x[0]` .. `x[7]` (10_state.md R10). -/
  regs : Vector Byte 8
  /-- The program counter (10_state.md R14). -/
  pc : Byte
  /-- The instruction register (10_state.md R15). -/
  ir : Byte
  /-- The flag register (10_state.md R16). -/
  fl : Byte
  /-- Running or Halted (10_state.md R18). -/
  run : RunState
  /-- The fault cause code (60_exceptions.md R161). -/
  cause : BitVec 2
  /-- The faulting opcode (60_exceptions.md R161). -/
  info : Byte
  /-- The bytes PRN has emitted, oldest first (10_state.md R19). -/
  out : List Byte
  /-- The 256 cells (10_state.md R20). -/
  mem : Memory
  deriving DecidableEq, Repr

/-- The state right after reset, with a memory that nothing has written (10_state.md R22;
70_reset_and_hazards.md R180; notes/assumptions/1.md and 2.md for memory). -/
def State.reset : State where
  regs := #v[0x00, 0x00, 0x00, 0x00, 0x00, 0x00, 0x00, Config.spReset]
  pc := Config.loadOrigin
  ir := 0x00
  fl := 0x00
  run := .running
  cause := 0
  info := 0x00
  out := []
  mem := []

end Sys2Proof.Machine
end

