-- ==== Sys2Proof/Machine/Ops.lean ====
section
/-! DEFINITION. The named operations every meaning is built from: memory and register accesses, the
output port, fetching (phases 1 and 3 of a step), the program counter, taking a fault, and what
follows a handler (phase 5). There is no return from a fault to stand beside taking one: the spec has
none (60_exceptions.md R168). -/

namespace Sys2Proof.Machine

/-- The byte at address `a` of a cell list: the listed byte, else what an unlisted cell reads as. -/
def Memory.readNat (m : Memory) (a : Nat) : Byte :=
  match m.find? (fun c => c.1 == a) with
  | some c => c.2
  | none => Config.unlistedByte

/-- `MemRead(addr, 1)`: changes nothing (20_memory.md R31). -/
def Memory.read (m : Memory) (addr : Byte) : Byte := Memory.readNat m addr.toNat

/-- Put a cell before the first listed cell of a higher address. -/
def Memory.insertCell (c : Host.Cell) : Memory → Memory
  | [] => [c]
  | d :: rest => if c.1 < d.1 then c :: d :: rest else d :: Memory.insertCell c rest

/-- `MemWrite(addr, 1, v)`, keeping the canonical form (20_memory.md R32). -/
def Memory.write (m : Memory) (addr v : Byte) : Memory :=
  let others := m.filter (fun c => c.1 != addr.toNat)
  if v = Config.unlistedByte then others else Memory.insertCell (addr.toNat, v) others

/-- `x[i]` (10_state.md R10). -/
def State.reg (s : State) (i : Fin 8) : Byte := s.regs[i]

/-- `x[i] <- v` (10_state.md R10). -/
def State.setReg (s : State) (i : Fin 8) (v : Byte) : State := { s with regs := s.regs.set i v }

/-- `fl <- v` (10_state.md R16). -/
def State.setFl (s : State) (v : Byte) : State := { s with fl := v }

/-- `pc <- target` (10_state.md R14). -/
def State.setPc (s : State) (target : Byte) : State := { s with pc := target }

/-- `MemRead(addr, 1)` on the machine's memory (20_memory.md R31). -/
def State.memRead (s : State) (addr : Byte) : Byte := Memory.read s.mem addr

/-- `MemWrite(addr, 1, v)` on the machine's memory (20_memory.md R32). -/
def State.memWrite (s : State) (addr v : Byte) : State := { s with mem := Memory.write s.mem addr v }

/-- `Output(v)`: append one byte to the output sequence (00_scope.md R7; 44_output.md R131). -/
def State.output (s : State) (v : Byte) : State := { s with out := s.out ++ [v] }

/-- Phase 1: `ir <- MemRead(pc, 1)` (40_step_cycle.md R71). -/
def fetchOpcode (s : State) : State := { s with ir := s.memRead s.pc }

/-- Phase 3: operandA is the byte at `(pc + 1) mod 256` (40_step_cycle.md R74). -/
def fetchOperandA (s : State) : Byte := s.memRead (aluAdd s.pc 1)

/-- Phase 3: operandB is the byte at `(pc + 2) mod 256` (40_step_cycle.md R74). -/
def fetchOperandB (s : State) : Byte := s.memRead (aluAdd s.pc 2)

/-- The instruction size `ir[7:6] + 1` (40_step_cycle.md R78). -/
def instrSize (ir : Byte) : Byte := (operandCount ir).setWidth 8 + 1

/-- Phase 5 without a target: `pc <- (pc + ir[7:6] + 1) mod 256`, with the arithmetic of ALU ADD
(40_step_cycle.md R78). -/
def advancePc (s : State) : State := s.setPc (aluAdd s.pc (instrSize s.ir))

/-- The `cause` code of a fault (60_exceptions.md R160). -/
def FaultKind.code : FaultKind → BitVec 2
  | .invalidOpcode => 1
  | .divisionByZero => 2
  | .regIndexFault => 3

/-- `raise F(i)`, taking a fault: `run <- Halted`, `cause <- code(F)`, `info <- i`, and nothing else is
written; control goes nowhere (60_exceptions.md R162). -/
def raise (f : FaultKind) (i : Byte) (s : State) : State :=
  { s with run := .halted, cause := f.code, info := i }

/-- The clean halt after phase 5 of HLT: `run <- Halted; cause <- 0` (40_step_cycle.md R80). -/
def haltClean (s : State) : State := { s with run := .halted, cause := 0 }

/-- The four outcomes of a handler, each but a fault with the state the handler leaves
(40_step_cycle.md R76). A fault carries no state: the handler has written nothing. -/
inductive HandlerOutcome where
  | next (s : State)
  | jump (target : Byte) (s : State)
  | halt (s : State)
  | fault (f : FaultKind)
  deriving DecidableEq, Repr

/-- What follows a handler that was run in state `s`: phase 5, or the fault with `info <- ir`
(40_step_cycle.md R76, R80). -/
def complete (s : State) : HandlerOutcome → State
  | .next t => advancePc t
  | .jump target t => t.setPc target
  | .halt t => haltClean (advancePc t)
  | .fault f => raise f s.ir s

end Sys2Proof.Machine
end

