-- ==== Sys2Proof/Machine/Operands.lean ====
section
/-! DEFINITION. The register operand forms of the instructions and the ALU form over them (spec
30_encoding.md R52, R53; 40_step_cycle.md R75; 42_alu.md part 2). The immediate of LDI needs no form:
it is the operand byte itself (30_encoding.md R54). -/

namespace Sys2Proof.Machine

/-- The register an operand byte names: the whole byte, when it is at most 7 (30_encoding.md R53). -/
def regIndexOf (b : Byte) : Option (Fin 8) :=
  if h : b.toNat < 8 then some ⟨b.toNat, h⟩ else none

/-- Check one register operand before any write; a byte above 7 raises RegIndexFault
(40_step_cycle.md R75; 60_exceptions.md R165). -/
def withReg (a : Byte) (handler : Fin 8 → HandlerOutcome) : HandlerOutcome :=
  match regIndexOf a with
  | some i => handler i
  | none => .fault .regIndexFault

/-- Check both register operands of a two-register instruction (60_exceptions.md R165). -/
def withRegPair (a b : Byte) (handler : Fin 8 → Fin 8 → HandlerOutcome) : HandlerOutcome :=
  withReg a fun i => withReg b fun j => handler i j

/-- What the ALU's output does to the state: a result goes to register `i`, compare bits go to FL, and
`div0` raises DivisionByZero (42_alu.md R100, R111, R112). -/
def aluToState (i : Fin 8) (s : State) : AluOut → HandlerOutcome
  | .result v => .next (s.setReg i v)
  | .egl f => .next (s.setFl (writeEgl s.fl f))
  | .div0 => .fault .divisionByZero

/-- "Delegate to ALU with given op": two registers, both read before the write (42_alu.md R115). -/
def aluPair (op : AluOp) (a b : Byte) (s : State) : HandlerOutcome :=
  withRegPair a b fun i j => aluToState i s (alu op (s.reg i) (s.reg j))

/-- "Delegate to ALU, unary": one register and the hardware's constant 1 (42_alu.md R100). -/
def aluUnary (op : AluOp) (a : Byte) (s : State) : HandlerOutcome :=
  withReg a fun i => aluToState i s (alu op (s.reg i) 1)

end Sys2Proof.Machine
end

