-- ==== Sys2Proof/Machine/Arithmetic.lean ====
section
/-! DEFINITION. The meanings of the instructions that delegate to the ALU (spec 42_alu.md part 2). -/

namespace Sys2Proof.Machine

/-- ADD a, b: `x[a] <- (x[a] + x[b]) & 0xFF` (42_alu.md R108). -/
def execAdd (a b : Byte) (s : State) : Host.Outcome State Fault Refusal :=
  .next (complete s (aluPair .add a b s))

/-- SUB a, b: `x[a] <- (x[a] - x[b]) & 0xFF` (42_alu.md R109). -/
def execSub (a b : Byte) (s : State) : Host.Outcome State Fault Refusal :=
  .next (complete s (aluPair .sub a b s))

/-- MUL a, b: `x[a] <- (x[a] * x[b]) & 0xFF` (42_alu.md R110). -/
def execMul (a b : Byte) (s : State) : Host.Outcome State Fault Refusal :=
  .next (complete s (aluPair .mul a b s))

/-- DIV a, b: `x[a] <- x[a] div x[b]`, or DivisionByZero (42_alu.md R111). -/
def execDiv (a b : Byte) (s : State) : Host.Outcome State Fault Refusal :=
  .next (complete s (aluPair .div a b s))

/-- CMP a, b: E, G, L of FL, no register (42_alu.md R112). -/
def execCmp (a b : Byte) (s : State) : Host.Outcome State Fault Refusal :=
  .next (complete s (aluPair .cmp a b s))

/-- INC a: `x[a] <- (x[a] + 1) & 0xFF` (42_alu.md R113). -/
def execInc (a : Byte) (s : State) : Host.Outcome State Fault Refusal :=
  .next (complete s (aluUnary .inc a s))

/-- DEC a: `x[a] <- (x[a] - 1) & 0xFF` (42_alu.md R114). -/
def execDec (a : Byte) (s : State) : Host.Outcome State Fault Refusal :=
  .next (complete s (aluUnary .dec a s))

end Sys2Proof.Machine
end

