-- ==== Sys2Proof/Machine/Branch.lean ====
section
/-! DEFINITION. The meanings of JMP, JEQ and JNE (spec 45_branch.md): absolute, register-indirect
targets. The operand is checked whether or not the branch is taken (decision D18). -/

namespace Sys2Proof.Machine

/-- A branch on a condition: to the register's value if it holds, else fall through (45_branch.md R140). -/
def branchIf (taken : Bool) (a : Byte) (s : State) : HandlerOutcome :=
  withReg a fun i => if taken then .jump (s.reg i) s else .next s

/-- JMP a: `pc <- x[a]` (45_branch.md R141). -/
def execJmp (a : Byte) (s : State) : Host.Outcome State Fault Refusal :=
  .next (complete s (branchIf true a s))

/-- JEQ a: taken if E is set (45_branch.md R142). -/
def execJeq (a : Byte) (s : State) : Host.Outcome State Fault Refusal :=
  .next (complete s (branchIf (flagE s.fl) a s))

/-- JNE a: taken if E is clear (45_branch.md R143). -/
def execJne (a : Byte) (s : State) : Host.Outcome State Fault Refusal :=
  .next (complete s (branchIf (!flagE s.fl) a s))

end Sys2Proof.Machine
end

