-- ==== Sys2Proof/Machine/Halt.lean ====
section
/-! DEFINITION. The meaning of HLT (spec 46_halt.md). -/

namespace Sys2Proof.Machine

/-- HLT: PC advances by 1, then a clean halt; no operand, so no RegIndexFault (46_halt.md R150). -/
def execHlt (s : State) : Host.Outcome State Fault Refusal :=
  .next (complete s (.halt s))

end Sys2Proof.Machine
end

