-- ==== Sys2Proof/Machine/LoadImmediate.lean ====
section
/-! DEFINITION. The meaning of LDI (spec 41_load_immediate.md). As every meaning, it runs in the state
that phases 1 to 3 leave: `ir` holds the opcode, `pc` its address (notes/assumptions/5.md). -/

namespace Sys2Proof.Machine

/-- LDI a, imm: `x[a] <- imm`, not through the ALU (41_load_immediate.md R90). -/
def execLdi (a imm : Byte) (s : State) : Host.Outcome State Fault Refusal :=
  .next (complete s (withReg a fun i => .next (s.setReg i imm)))

end Sys2Proof.Machine
end

