-- ==== Sys2Proof/Machine/Output.lean ====
section
/-! DEFINITION. The meaning of PRN (spec 44_output.md). -/

namespace Sys2Proof.Machine

/-- PRN a: emit `x[a]` as one raw byte; the port always accepts it (44_output.md R130, R131). -/
def execPrn (a : Byte) (s : State) : Host.Outcome State Fault Refusal :=
  .next (complete s (withReg a fun i => .next (s.output (s.reg i))))

end Sys2Proof.Machine
end

