-- ==== Sys2Proof/Machine/Stack.lean ====
section
/-! DEFINITION. The meanings of PUSH and POP (spec 43_stack.md). The statements of their pseudocode
take effect in the order written, also when the operand is register 7 (00_scope.md R8; 43_stack.md R122,
R124, decision D9). -/

namespace Sys2Proof.Machine

/-- The address PUSH stores to: SP after the decrement (43_stack.md R121). -/
def pushAddr (s : State) : Byte := aluDec (s.reg Config.spIndex)

/-- PUSH's first statement: `x[7] <- (x[7] - 1) & 0xFF`. -/
def pushDecrement (s : State) : State := s.setReg Config.spIndex (pushAddr s)

/-- The byte PUSH stores: the operand register, read after the decrement (43_stack.md R121, R122). -/
def pushValue (i : Fin 8) (s : State) : Byte := (pushDecrement s).reg i

/-- PUSH's two statements (43_stack.md R121). -/
def pushReg (i : Fin 8) (s : State) : State := (pushDecrement s).memWrite (pushAddr s) (pushValue i s)

/-- POP's first statement: `x[a] <- MemRead(x[7], 1)` (43_stack.md R123). -/
def popLoad (i : Fin 8) (s : State) : State := s.setReg i (s.memRead (s.reg Config.spIndex))

/-- POP's two statements; the increment applies to what `x[7]` then holds (43_stack.md R123, R124). -/
def popReg (i : Fin 8) (s : State) : State :=
  let t := popLoad i s
  t.setReg Config.spIndex (aluInc (t.reg Config.spIndex))

/-- PUSH a: decrement SP, then store (43_stack.md R121). -/
def execPush (a : Byte) (s : State) : Host.Outcome State Fault Refusal :=
  .next (complete s (withReg a fun i => .next (pushReg i s)))

/-- POP a: load at SP, then increment SP (43_stack.md R123). -/
def execPop (a : Byte) (s : State) : Host.Outcome State Fault Refusal :=
  .next (complete s (withReg a fun i => .next (popReg i s)))

end Sys2Proof.Machine
end

