-- ==== Sys2Proof/Machine/Step.lean ====
section
/-! DEFINITION. One step (spec 40_step_cycle.md R70, R80) and the placing of a word where the next
step fetches. -/

namespace Sys2Proof.Machine

/-- The complete transition: nothing while Halted (R79); else fetch the opcode into `ir` (R71), look it
up (R72) and raise InvalidOpcode if there is none (R73), else run it with both operand bytes (R74, R75). -/
def step (s : State) : Host.Outcome State Fault Refusal :=
  match s.run with
  | .halted => .next s
  | .running =>
    let t := fetchOpcode s
    match decode t.ir (fetchOperandA t) (fetchOperandB t) with
    | .error (.invalidOpcode op) => .next (raise .invalidOpcode op t)
    | .ok i => exec i t

/-- `s` with an instruction's bits (those above `nbits` 0) stored at `pc`, `pc + 1` and `pc + 2`, and
Running, so that the next step fetches and runs it (notes/assumptions/2.md). -/
def State.withFetchWord (s : State) (nbits w : Nat) : State :=
  let bits := w % 2 ^ nbits
  { (((s.memWrite s.pc (tableByte 0 bits)).memWrite (aluAdd s.pc 1) (tableByte 1 bits)).memWrite
      (aluAdd s.pc 2) (tableByte 2 bits)) with run := .running }

end Sys2Proof.Machine
end

