-- ==== Sys2Proof/Machine/Driver.lean ====
section
/-! DEFINITION. What the external driver does to the core and what it observes (spec 00_scope.md R6;
40_step_cycle.md R85 to R87; 70_reset_and_hazards.md R180 to R184). -/

namespace Sys2Proof.Machine

/-- The `reset` input: every piece of core state takes its reset value, from any state, and memory is
untouched (70_reset_and_hazards.md R180, R181). -/
def applyReset (s : State) : State := { State.reset with mem := s.mem }

/-- A memory that holds `image` from address `addr` on, over the memory `m`. -/
def Memory.place (m : Memory) (addr : Byte) : List Byte → Memory
  | [] => m
  | v :: rest => Memory.place (Memory.write m addr v) (aluAdd addr 1) rest

/-- The loader: the image from address 0 in file order, 0x00 beyond its end; an image of more than 256
bytes is refused and reaches nothing (70_reset_and_hazards.md R184, decisions D10, D11). This is what a load
does; when the driver may ask for one is `drive`'s to say. -/
def loadImage (image : List Byte) (s : State) : Option State :=
  if image.length ≤ Config.memSize then some { s with mem := Memory.place [] Config.loadOrigin image }
  else none

/-- The `halted` output: 1 when `run` = Halted (00_scope.md R6). -/
def haltedOut (s : State) : Bool := decide (s.run = .halted)

/-- The `error` output: `cause != 0`, 1 when Halted by a fault (00_scope.md R6; 60_exceptions.md R161). -/
def errorOut (s : State) : Bool := decide (s.cause ≠ 0)

/-- What the driver may ask of the core (40_step_cycle.md R86). -/
inductive DriverRequest where
  /-- Apply `reset`, between steps, in any run state. -/
  | reset
  /-- Write the image into memory, before the first step of a run. -/
  | load (image : List Byte)
  /-- Request one step. -/
  | step
  deriving DecidableEq, Repr

/-- The core as the driver sees it: its state, and whether a step has been performed since the last
`reset` (or power-up). `started` is the driver's knowledge and no state of the hardware
(40_step_cycle.md R85, R86; notes/assumptions/17.md). -/
structure Session where
  /-- The machine's state. -/
  core : State
  /-- A step has been performed since the last reset. -/
  started : Bool
  deriving DecidableEq, Repr

/-- The driver at power-up: the reset state, no step performed (70_reset_and_hazards.md R184). -/
def Session.powerUp : Session := { core := State.reset, started := false }

/-- During a run: between its first step and Halted (40_step_cycle.md R86). -/
def inRun (d : Session) : Bool := d.started && decide (d.core.run = .running)

/-- `step` asked by the driver; a step ignored while Halted performs none (40_step_cycle.md R79). -/
def driveStep (d : Session) : Host.Outcome Session Fault Refusal :=
  match step d.core with
  | .next t => .next { core := t, started := d.started || decide (d.core.run = .running) }
  | .fault r => .fault r
  | .refused r => .refused r

/-- The effect of one driver request; `none` where the model has no move: a load during a run, which the
spec assumes never happens (40_step_cycle.md R86; 20_memory.md R41), and an image the loader refuses
(decision D11). DESIGN CHOICE (notes/assumptions/17.md): a load is admitted whenever no run is in progress,
so also while Halted before the next reset. -/
def drive (r : DriverRequest) (d : Session) : Option (Host.Outcome Session Fault Refusal) :=
  match r with
  | .reset => some (.next { core := applyReset d.core, started := false })
  | .load image =>
    if inRun d then none
    else
      match loadImage image d.core with
      | some t => some (.next { d with core := t })
      | none => none
  | .step => some (driveStep d)

/-- Run instructions one after another in the state each leaves, stopping at a fault or a refusal:
phases 4 and 5 alone, with no fetch, for statements about a sequence of instructions. -/
def execAll : List Instr → State → Host.Outcome State Fault Refusal
  | [], s => .next s
  | i :: rest, s =>
    match exec i s with
    | .next t => execAll rest t
    | .fault r => .fault r
    | .refused r => .refused r

end Sys2Proof.Machine
end

