-- ==== Sys2Proof/Machine/Port.lean ====
section
/-! DEFINITION. The traffic of the memory port: which accesses a step makes, in order (spec
00_scope.md R6; 20_memory.md R34; 40_step_cycle.md R81). It is no state; `step` computes the effect. -/

namespace Sys2Proof.Machine

/-- One access of the memory port, always of one byte (20_memory.md R34, R35). -/
inductive Access where
  /-- `MemRead(addr, 1)`. -/
  | read (addr : Byte)
  /-- `MemWrite(addr, 1, v)`. -/
  | write (addr v : Byte)
  deriving DecidableEq, Repr

/-- The handler's own access: PUSH writes, POP reads, no other instruction accesses memory, and a
handler that faults makes none (20_memory.md R34; 60_exceptions.md R165). -/
def handlerAccesses (i : Instr) (s : State) : List Access :=
  match i with
  | .push a =>
    match regIndexOf a with
    | some r => [.write (pushAddr s) (pushValue r s)]
    | none => []
  | .pop a =>
    match regIndexOf a with
    | some _ => [.read (s.reg Config.spIndex)]
    | none => []
  | .ldi _ _ => []
  | .add _ _ => []
  | .sub _ _ => []
  | .mul _ _ => []
  | .div _ _ => []
  | .cmp _ _ => []
  | .inc _ => []
  | .dec _ => []
  | .prn _ => []
  | .jmp _ => []
  | .jeq _ => []
  | .jne _ => []
  | .hlt => []

/-- The accesses of one step: none while Halted (R79), the opcode alone for an invalid opcode (R73), else
the opcode, both operand bytes, and the handler's own (R74, R81). -/
def stepAccesses (s : State) : List Access :=
  match s.run with
  | .halted => []
  | .running =>
    let t := fetchOpcode s
    match decode t.ir (fetchOperandA t) (fetchOperandB t) with
    | .error _ => [.read s.pc]
    | .ok i => [.read s.pc, .read (aluAdd s.pc 1), .read (aluAdd s.pc 2)] ++ handlerAccesses i t

/-- What a sequence of accesses does to memory: a read changes nothing, a write stores its byte
(20_memory.md R31, R32). -/
def applyAccesses : List Access → Memory → Memory
  | [], m => m
  | .read _ :: rest, m => applyAccesses rest m
  | .write addr v :: rest, m => applyAccesses rest (Memory.write m addr v)

end Sys2Proof.Machine
end

