-- ==== Sys2Proof/Safety.lean ====
section
/-! DEFINITION. The terms claims are stated in: the invariant of the machine's states, the ways a
run ends, and what a program can observe of the state. -/

namespace Sys2Proof.Machine

/-- FL as spec 10_state.md R17 says it stays: bits 7 to 3 are 0 and at most one of E, G, L is set. -/
def FlagsLegal (fl : Byte) : Prop := fl = 0x00 ∨ fl = 0x01 ∨ fl = 0x02 ∨ fl = 0x04

/-- The fault record as spec 10_state.md R18 says it stays: no cause while Running, and `info` is `ir`
when there is a cause, else 0. -/
def FaultRecordLegal (s : State) : Prop :=
  (s.run = .running → s.cause = 0) ∧ (s.cause = 0 → s.info = 0x00) ∧ (s.cause ≠ 0 → s.info = s.ir)

/-- The invariant of every reachable state. The canonical form is the model's choice (DESIGN CHOICE,
notes/assumptions/1.md); that bits 7 to 3 of FL stay 0 rests on the spec's decision D8 (11.md), and the
fault record is the spec's decision D6 (10.md). -/
structure Inv (s : State) : Prop where
  /-- Memory is in its canonical form. -/
  mem_wf : Memory.wf s.mem
  /-- FL is legal. -/
  flags : FlagsLegal s.fl
  /-- The fault record is legal. -/
  record : FaultRecordLegal s

/-- Halted by HLT (40_step_cycle.md R87). -/
def CleanHalt (s : State) : Prop := s.run = .halted ∧ s.cause = 0

/-- Halted by a fault (40_step_cycle.md R87). -/
def ErrorHalt (s : State) : Prop := s.run = .halted ∧ s.cause ≠ 0

/-- Two states that no program can tell apart: they agree on the general registers, E, memory and PC,
and on the run state; they may differ in G, L, the unused bits of FL, `ir`, `cause`, `info` and `out`
(10_state.md R23). -/
def SameToProgram (s t : State) : Prop :=
  s.regs = t.regs ∧ flagE s.fl = flagE t.fl ∧ s.mem = t.mem ∧ s.pc = t.pc ∧ s.run = t.run

/-- The divisor of a DIV whose operands name registers, in state `s`, is 0. -/
def DividesByZero (i : Instr) (s : State) : Prop :=
  ∃ (a b : Byte) (j : Fin 8), i = .div a b ∧ b.toNat = j.val ∧ s.regs[j] = 0x00

end Sys2Proof.Machine
end

