-- ==== Sys2Proof/WellFormed.lean ====
section
/-! DEFINITION. Which operand bytes an instruction uses as register indices, and when all of them
name a register (spec 10_state.md R13; 30_encoding.md R53). An instruction that is not well-formed still
decodes (30_encoding.md R57) and still executes: it raises RegIndexFault (60_exceptions.md R165). -/

namespace Sys2Proof

/-- The operand bytes the instruction uses as register indices: never the immediate of LDI, and none
for HLT (10_state.md R13; 60_exceptions.md R165). -/
def Instr.regOperands : Instr → List Byte
  | .ldi a _ => [a]
  | .add a b => [a, b]
  | .sub a b => [a, b]
  | .mul a b => [a, b]
  | .div a b => [a, b]
  | .cmp a b => [a, b]
  | .inc a => [a]
  | .dec a => [a]
  | .push a => [a]
  | .pop a => [a]
  | .prn a => [a]
  | .jmp a => [a]
  | .jeq a => [a]
  | .jne a => [a]
  | .hlt => []

/-- Every register operand byte is one of 0..7 (10_state.md R13; 70_reset_and_hazards.md R191). -/
abbrev Instr.WellFormed (i : Instr) : Prop := ∀ r ∈ i.regOperands, r.toNat ≤ 7

end Sys2Proof
end

