-- ==== Sys2Proof/Certificates/Slice0/Obligations.lean ====
section
/-! DEFINITION. The statements for the provers. A register operand byte `a` names register `i` when
`a.toNat = i.val`; `s.pc + ((s.ir >>> 6) + 1)` is `(pc + ir[7:6] + 1) mod 256` (spec 40_step_cycle.md
R78). Statements about `step` name the fetched bytes by `Memory.read` at `pc`, `pc + 1`, `pc + 2`. -/

open Sys2Proof Sys2Proof.Machine

/-! ## Encoding -/

/-- 30_encoding.md, the opcode map: each opcode byte written out in binary decodes to its instruction,
whatever the operand bytes. The values are the spec's decision D1 (log 3). -/
def Obligations.OpcodeBytesDecodeToTheirInstructions : Prop :=
  ∀ a b : Byte,
    decode 0b10011001 a b = .ok (.ldi a b) ∧ decode 0b10101000 a b = .ok (.add a b) ∧
    decode 0b10101001 a b = .ok (.sub a b) ∧ decode 0b10101010 a b = .ok (.mul a b) ∧
    decode 0b10101011 a b = .ok (.div a b) ∧ decode 0b10100000 a b = .ok (.cmp a b) ∧
    decode 0b01111000 a b = .ok (.inc a) ∧ decode 0b01111001 a b = .ok (.dec a) ∧
    decode 0b01001101 a b = .ok (.push a) ∧ decode 0b01001100 a b = .ok (.pop a) ∧
    decode 0b01000011 a b = .ok (.prn a) ∧ decode 0b01010000 a b = .ok (.jmp a) ∧
    decode 0b01010001 a b = .ok (.jeq a) ∧ decode 0b01010010 a b = .ok (.jne a) ∧
    decode 0b00000001 a b = .ok .hlt

/-- Three bytes decode to an instruction exactly when they begin with its encoding: the round trip for
every instruction and every operand value, its converse, and that bytes beyond the encoding do not matter
(30_encoding.md sections 1 to 3). -/
def Obligations.DecodeAndEncodeAgree : Prop :=
  ∀ (op a b : Byte) (i : Instr), decode op a b = .ok i ↔ ∃ rest, [op, a, b] = encode i ++ rest

/-- 30_encoding.md section 4: a byte is rejected, by its own name, exactly when it is none of the 15
opcode bytes; operand bytes play no part. The values are the spec's decision D1 (log 3). -/
def Obligations.OtherBytesAreInvalidOpcodes : Prop :=
  ∀ op a b : Byte, decode op a b = .error (.invalidOpcode op) ↔
    op ∉ ([0x01, 0x43, 0x4C, 0x4D, 0x50, 0x51, 0x52, 0x78, 0x79, 0x99, 0xA0, 0xA8, 0xA9, 0xAA, 0xAB] : List Byte)

/-- 30_encoding.md R50: one opcode byte and 0, 1 or 2 operand bytes, as many as bits 7 to 6 of the
opcode say, and an instruction whose bytes lie at consecutive addresses modulo 256 from `pc` is the one
a step runs. -/
def Obligations.EncodedInstructionInMemoryRuns : Prop :=
  ∀ i : Instr,
    (encode i).length = (i.opcode >>> 6).toNat + 1 ∧ 1 ≤ (encode i).length ∧ (encode i).length ≤ 3 ∧
    (encode i).head? = some i.opcode ∧
    ∀ s : State, s.run = .running →
      (∀ k v, (encode i)[k]? = some v → Memory.read s.mem (s.pc + BitVec.ofNat 8 k) = v) →
      step s = exec i { s with ir := i.opcode }

/-- 30_encoding.md R56: the 15 opcode bytes are pairwise distinct, and bits 7 to 6 of each are the
operand count of its instruction: 2, 1 or 0. -/
def Obligations.OpcodeMapIsDistinctAndGivesArity : Prop :=
  dispatchTable.length = 15 ∧ (dispatchTable.map Prod.fst).Nodup ∧
  (∀ a b : Byte, ∀ i ∈ [Instr.ldi a b, .add a b, .sub a b, .mul a b, .div a b, .cmp a b],
    i.opcode >>> 6 = 2 ∧ i.operandBytes = [a, b]) ∧
  (∀ a : Byte, ∀ i ∈ [Instr.inc a, .dec a, .push a, .pop a, .prn a, .jmp a, .jeq a, .jne a],
    i.opcode >>> 6 = 1 ∧ i.operandBytes = [a]) ∧
  Instr.hlt.opcode >>> 6 = 0 ∧ Instr.hlt.operandBytes = []

/-- A word of the opcode table placed by `withFetchWord` is what the next step runs. About the host's
interface, which is the model's own (log 2). -/
def Obligations.PlacedTableWordRunsNext : Prop :=
  ∀ (s : State) (nbits w : Nat) (i : Instr), decodeTableWord nbits w = some i →
    step (s.withFetchWord nbits w) = exec i { s.withFetchWord nbits w with ir := i.opcode } ∧
    (s.withFetchWord nbits w).pc = s.pc ∧ (s.withFetchWord nbits w).regs = s.regs ∧
    (s.withFetchWord nbits w).fl = s.fl ∧ (s.withFetchWord nbits w).out = s.out

/-! ## The step -/

/-- 40_step_cycle.md sections 1 and 2: when the bytes at `pc`, `pc + 1`, `pc + 2` decode to an
instruction, a step of a Running machine is that instruction's `exec` in the state with IR loaded. -/
def Obligations.StepRunsTheDecodedInstruction : Prop :=
  ∀ (s : State) (i : Instr), s.run = .running →
    decode (Memory.read s.mem s.pc) (Memory.read s.mem (s.pc + 1)) (Memory.read s.mem (s.pc + 2)) = .ok i →
    step s = exec i { s with ir := Memory.read s.mem s.pc }

/-- 40_step_cycle.md R71: phase 1 loads IR with the byte at PC and changes nothing else, and every step
of a Running machine does it, whatever the byte is. -/
def Obligations.EveryStepLoadsIrFromPc : Prop :=
  (∀ s : State, fetchOpcode s = { s with ir := Memory.read s.mem s.pc }) ∧
  ∀ s : State, s.run = .running → ∃ t, step s = .next t ∧ t.ir = Memory.read s.mem s.pc

/-- 40_step_cycle.md section 2: the step is total; no instruction and no step ends in a fault or a
refusal of the model (log 4). -/
def Obligations.EveryStepAnswersANextState : Prop :=
  (∀ (i : Instr) (s : State), ∃ t, exec i s = .next t) ∧ ∀ s : State, ∃ t, step s = .next t

/-- 40_step_cycle.md section 1: any number of step requests while Halted change nothing and access no
memory. The spec's decision D7. -/
def Obligations.HaltedIsFinal : Prop :=
  ∀ s : State, s.run = .halted →
    stepAccesses s = [] ∧ ∀ n : Nat, Host.Core.run Sys2Proof.core n s = .next s

/-- 40_step_cycle.md R73: on an opcode without a handler the only state that differs is IR, the run
state, `cause` (1) and `info`, and no operand byte is read. -/
def Obligations.InvalidOpcodeHaltsAndChangesNothingElse : Prop :=
  ∀ s : State, s.run = .running →
    (∀ (a b : Byte) (i : Instr), decode (Memory.read s.mem s.pc) a b ≠ .ok i) →
    step s = .next { s with ir := Memory.read s.mem s.pc, run := .halted, cause := 1,
                            info := Memory.read s.mem s.pc } ∧
    stepAccesses s = [.read s.pc]

/-- 40_step_cycle.md R78: phase 5 without a target writes `(pc + ir[7:6] + 1) mod 256` to `pc` and
nothing else, and no valid opcode has operand count 3. -/
def Obligations.SequentialPcAddsOperandCountPlusOne : Prop :=
  (∀ s : State, advancePc s = { s with pc := BitVec.ofNat 8 ((s.pc.toNat + s.ir.toNat / 64 + 1) % 256) }) ∧
  ∀ (op a b : Byte) (i : Instr), decode op a b = .ok i → op.toNat / 64 ≤ 2

/-- 40_step_cycle.md section 3: PC after a step, instruction by instruction, and unchanged by a step that
faults. A Running machine has no cause (the invariant `Inv`). The faulting row rests on decision D5. -/
def Obligations.PcAfterEachInstruction : Prop :=
  ∀ (s t : State) (i : Instr), s.run = .running → s.cause = 0 →
    decode (Memory.read s.mem s.pc) (Memory.read s.mem (s.pc + 1)) (Memory.read s.mem (s.pc + 2)) = .ok i →
    step s = .next t →
    (t.cause ≠ 0 → t.pc = s.pc) ∧
    (t.cause = 0 →
      match i with
      | .hlt => t.pc = s.pc + 1
      | .inc _ => t.pc = s.pc + 2
      | .dec _ => t.pc = s.pc + 2
      | .push _ => t.pc = s.pc + 2
      | .pop _ => t.pc = s.pc + 2
      | .prn _ => t.pc = s.pc + 2
      | .jmp a => ∃ r : Fin 8, a.toNat = r.val ∧ t.pc = s.regs[r]
      | .jeq a => if s.fl.getLsbD 0 then ∃ r : Fin 8, a.toNat = r.val ∧ t.pc = s.regs[r] else t.pc = s.pc + 2
      | .jne a => if s.fl.getLsbD 0 then t.pc = s.pc + 2 else ∃ r : Fin 8, a.toNat = r.val ∧ t.pc = s.regs[r]
      | .ldi _ _ => t.pc = s.pc + 3
      | .add _ _ => t.pc = s.pc + 3
      | .sub _ _ => t.pc = s.pc + 3
      | .mul _ _ => t.pc = s.pc + 3
      | .div _ _ => t.pc = s.pc + 3
      | .cmp _ _ => t.pc = s.pc + 3)

/-! ## Faults and the end of a run -/

/-- 40_step_cycle.md section 4: a Running machine halts cleanly exactly by executing HLT. -/
def Obligations.CleanHaltExactlyByHlt : Prop :=
  ∀ s t : State, s.run = .running → s.cause = 0 → step s = .next t →
    (CleanHalt t ↔
      decode (Memory.read s.mem s.pc) (Memory.read s.mem (s.pc + 1)) (Memory.read s.mem (s.pc + 2)) = .ok .hlt)

/-- 60_exceptions.md sections 1 and 3: which fault a step takes, in the order of priority: the opcode, then
the register operands, then the divisor. The codes and the conditions 2 and 3 are the spec's decisions D3,
D4, D6, D19. -/
def Obligations.FaultCauseExactlyByCondition : Prop :=
  ∀ s t : State, s.run = .running → s.cause = 0 → step s = .next t →
    let d := decode (Memory.read s.mem s.pc) (Memory.read s.mem (s.pc + 1)) (Memory.read s.mem (s.pc + 2))
    (t.cause = 1 ↔ ∃ e, d = .error e) ∧
    (t.cause = 3 ↔ ∃ i, d = .ok i ∧ ∃ r ∈ i.regOperands, 7 < r.toNat) ∧
    (t.cause = 2 ↔ ∃ i, d = .ok i ∧ (∀ r ∈ i.regOperands, r.toNat ≤ 7) ∧ DividesByZero i s)

/-- 60_exceptions.md section 2: a step that takes a fault writes IR, the run state and the fault record and
nothing else; PC stays at the faulting opcode. For two of the causes this is decision D5. -/
def Obligations.FaultsArePrecise : Prop :=
  ∀ s t : State, s.run = .running → s.cause = 0 → step s = .next t → t.cause ≠ 0 →
    t = { s with ir := Memory.read s.mem s.pc, run := .halted, cause := t.cause,
                 info := Memory.read s.mem s.pc }

/-- 60_exceptions.md section 1: every instruction with a register operand byte above 7 takes RegIndexFault,
before any write. The spec's decision D4. -/
def Obligations.BadRegisterOperandTakesRegIndexFault : Prop :=
  ∀ (i : Instr) (s : State), (∃ r ∈ i.regOperands, 7 < r.toNat) →
    exec i s = .next { s with run := .halted, cause := 3, info := s.ir }

/-- 42_alu.md, DIV: with a divisor register that holds 0, DIV takes DivisionByZero and writes no register.
The spec's decision D3. -/
def Obligations.DivByZeroTakesDivisionByZero : Prop :=
  ∀ (s : State) (a b : Byte) (i j : Fin 8), a.toNat = i.val → b.toNat = j.val → s.regs[j] = 0 →
    exec (.div a b) s = .next { s with run := .halted, cause := 2, info := s.ir }

/-- Every instruction whose register operands name registers, and which divides by no 0, completes
without a fault: the fault record stays (HLT clears `cause`), and only HLT changes the run state. -/
def Obligations.WellFormedInstructionsCompleteWithoutFault : Prop :=
  ∀ (i : Instr) (s : State), i.WellFormed → ¬ DividesByZero i s →
    ∃ t, exec i s = .next t ∧ t.info = s.info ∧
      (i = .hlt → t.run = .halted ∧ t.cause = 0) ∧ (i ≠ .hlt → t.run = s.run ∧ t.cause = s.cause)

/-! ## Invariant and reset -/

/-- The reset state meets the invariant. The canonical memory form and the empty list of `State.reset` are
the model's choices (DESIGN CHOICE, logs 1 and 2), the fault record is the spec's decision D6 (log 10); FL's
reset value is 10_state.md section 9's. -/
def Obligations.ResetMeetsTheInvariant : Prop := Inv State.reset

/-- From every state that meets the invariant a step leads to one that does: memory stays in the canonical
form, which is the model's choice and no rule of the spec (DESIGN CHOICE, log 1); FL stays 0 or one of
E, G, L with bits 7 to 3 zero (10_state.md section 4, bits 7 to 3 by decision D8, log 11); the fault record,
which is the spec's decision D6 (log 10), stays as 10_state.md section 5 says. -/
def Obligations.StepKeepsTheInvariant : Prop :=
  ∀ s t : State, Inv s → step s = .next t → Inv t

/-- `reset` gives a state that meets the invariant, and loading an image keeps it. The canonical memory both
keep is the model's choice (DESIGN CHOICE, log 1), and so is the loader as a function on the state's memory
(DESIGN CHOICE, log 2, decisions D10 and D11); the fault record is decision D6 (log 10) and the reset input
decision D16 (log 12). -/
def Obligations.ResetAndLoadKeepTheInvariant : Prop :=
  ∀ s : State, Inv s → Inv (applyReset s) ∧ ∀ image t, loadImage image s = some t → Inv t

/-- 10_state.md section 9: every reset value, from any state, with memory untouched, and
`State.reset` with nothing written to memory. `cause`, `info`, `out` and the reset input itself are the
spec's decisions D6, D14, D16; the memory of `State.reset` is the model's choice (logs 1 and 2). -/
def Obligations.ResetSetsEveryRegister : Prop :=
  (∀ s : State, applyReset s =
    { regs := #v[0, 0, 0, 0, 0, 0, 0, 0xF3], pc := 0, ir := 0, fl := 0, run := .running, cause := 0,
      info := 0, out := [], mem := s.mem }) ∧
  (applyReset State.reset = State.reset) ∧ ∀ addr, Memory.read State.reset.mem addr = 0

/-- 70_reset_and_hazards.md R182: after reset the core is Running and the first instruction is fetched
from address 0, which is the first byte of a loaded image. -/
def Obligations.FirstInstructionIsFetchedFromAddressZero : Prop :=
  ∀ s : State, (applyReset s).run = .running ∧ (applyReset s).pc = 0 ∧
    (∃ t, step (applyReset s) = .next t ∧ t.ir = Memory.read s.mem 0) ∧
    ∀ (v : Byte) (rest : List Byte) (l : State), loadImage (v :: rest) (applyReset s) = some l →
      ∃ t, step l = .next t ∧ t.ir = v

/-- 70_reset_and_hazards.md section 2: the loader puts an image of at most 256 bytes at address 0 in file
order, 0x00 beyond it, and touches nothing else; a longer one is refused. The zero fill and the refusal
are the spec's decisions D10 and D11 (log 2). -/
def Obligations.LoaderPlacesTheImageFromAddressZero : Prop :=
  ∀ (image : List Byte) (s : State),
    (image.length ≤ 256 → ∃ t, loadImage image s = some t ∧ t = { s with mem := t.mem } ∧
      (∀ k v, image[k]? = some v → Memory.read t.mem (BitVec.ofNat 8 k) = v) ∧
      ∀ addr : Byte, image.length ≤ addr.toNat → Memory.read t.mem addr = 0) ∧
    (256 < image.length → loadImage image s = none)

/-- 70_reset_and_hazards.md section 1: of all the driver may ask of a Halted core, only `reset` makes it
Running again, and it does. The reset input is the spec's decision D16 (log 12), the ignored step D7
(log 9). -/
def Obligations.OnlyResetLeavesHalted : Prop :=
  ∀ d : Session, d.core.run = .halted →
    (∃ e, drive .reset d = some (.next e) ∧ e.core.run = .running) ∧
    ∀ (r : DriverRequest) (e : Session), drive r d = some (.next e) → e.core.run = .running → r = .reset

/-- 40_step_cycle.md section 4, the driver's contract: `reset` is admitted always and starts anew, a step
request is one step and is ignored while Halted, and a load is admitted exactly when no run is in progress
and the image fits, where it does what the loader does. That a load is also admitted while Halted is the
model's choice (DESIGN CHOICE, log 17); D7, D11, D16 are the spec's decisions (logs 9, 2, 12). -/
def Obligations.DriverRequestsFollowTheContract : Prop :=
  ∀ d : Session,
    drive .reset d = some (.next { core := applyReset d.core, started := false }) ∧
    (d.core.run = .running → ∃ t, step d.core = .next t ∧
      drive .step d = some (.next { core := t, started := true })) ∧
    (d.core.run = .halted → drive .step d = some (.next d)) ∧
    (∀ image, d.started = true → d.core.run = .running → drive (.load image) d = none) ∧
    (∀ image, 256 < image.length → drive (.load image) d = none) ∧
    (∀ image, (d.started = false ∨ d.core.run = .halted) → image.length ≤ 256 →
      ∃ t, loadImage image d.core = some t ∧ drive (.load image) d = some (.next { d with core := t }))

/-- 40_step_cycle.md section 4 and 20_memory.md section 7: during a run no request writes memory from
outside. Whatever the driver asks, a byte that changes was changed by a step that executes PUSH. How the
model knows that a run is in progress is log 17. -/
def Obligations.NothingOutsideWritesMemoryDuringARun : Prop :=
  ∀ (r : DriverRequest) (d e : Session) (addr : Byte), inRun d = true → drive r d = some (.next e) →
    Memory.read e.core.mem addr ≠ Memory.read d.core.mem addr →
    r = .step ∧ ∃ a,
      decode (Memory.read d.core.mem d.core.pc) (Memory.read d.core.mem (d.core.pc + 1))
        (Memory.read d.core.mem (d.core.pc + 2)) = .ok (.push a)

/-- 00_scope.md, the status outputs, on states that meet the invariant: `error` is 1 exactly when Halted
by a fault, and then `halted` is 1 and `info` is the opcode in IR. -/
def Obligations.ErrorOutputExactlyOnErrorHalt : Prop :=
  ∀ s : State, Inv s →
    (errorOut s = true ↔ ErrorHalt s) ∧ (haltedOut s = true ↔ s.run = .halted) ∧
    (errorOut s = true → haltedOut s = true ∧ s.info = s.ir)

/-! ## Memory -/

/-- 20_memory.md R32: after `MemWrite(addr, 1, v)`, `MemRead(addr, 1)` returns `v`, and no other cell
changes; every cell is writable. -/
def Obligations.MemoryReadsWhatWasLastWritten : Prop :=
  ∀ (m : Memory) (addr v : Byte), Memory.read (Memory.write m addr v) addr = v ∧
    ∀ other : Byte, other ≠ addr → Memory.read (Memory.write m addr v) other = Memory.read m other

/-- The canonical form (the model's choice, log 1): a write keeps it, and two canonical memories with the
same 256 contents are the same list. -/
def Obligations.CanonicalMemoryIsDeterminedByItsContents : Prop :=
  (∀ (m : Memory) (addr v : Byte), Memory.wf m → Memory.wf (Memory.write m addr v)) ∧
  ∀ m n : Memory, Memory.wf m → Memory.wf n → (∀ addr, Memory.read m addr = Memory.read n addr) → m = n

/-- 20_memory.md section 1 and 40_step_cycle.md section 2: the memory-port traffic of a step that runs an
instruction is the three fetch reads, in order, then PUSH's write at SP after the decrement, or POP's read
at SP before the increment, or nothing: nothing for every other instruction, and for a PUSH or POP whose
operand names no register (decision D4, log 8). Memory afterwards is exactly what the traffic made of it. The
byte PUSH R7 writes is decision D9 (log 6); that the traffic is a function of the state is log 14. -/
def Obligations.StepAccessesAreTheFetchesAndAtMostOneMore : Prop :=
  ∀ s t : State, step s = .next t →
    t.mem = applyAccesses (stepAccesses s) s.mem ∧
    ∀ i, s.run = .running →
      decode (Memory.read s.mem s.pc) (Memory.read s.mem (s.pc + 1)) (Memory.read s.mem (s.pc + 2)) = .ok i →
      ∃ more, stepAccesses s = [.read s.pc, .read (s.pc + 1), .read (s.pc + 2)] ++ more ∧ more.length ≤ 1 ∧
        (∀ (a : Byte) (r : Fin 8), i = .push a → a.toNat = r.val →
          more = [.write (pushAddr (fetchOpcode s)) (pushValue r (fetchOpcode s))] ∧
          pushAddr (fetchOpcode s) = s.regs[7] - 1 ∧
          pushValue r (fetchOpcode s) = if r = 7 then s.regs[7] - 1 else s.regs[r]) ∧
        (∀ (a : Byte) (r : Fin 8), i = .pop a → a.toNat = r.val → more = [.read s.regs[7]]) ∧
        (∀ a : Byte, (i = .push a ∨ i = .pop a) → 7 < a.toNat → more = []) ∧
        ((∀ a : Byte, i ≠ .push a ∧ i ≠ .pop a) → more = [])

/-- 20_memory.md section 7: a byte stored by PUSH is what the very next step fetches as its opcode, when
that step's PC is the address PUSH stored to. -/
def Obligations.PushedByteIsFetchedByTheNextStep : Prop :=
  ∀ (s t : State) (a : Byte) (i : Fin 8), a.toNat = i.val → s.run = .running →
    exec (.push a) s = .next t → t.pc = pushAddr s → ∃ u, step t = .next u ∧ u.ir = pushValue i s

/-! ## What each instruction does (its whole next state, so its frame as well) -/

/-- 41_load_immediate.md, LDI: the register holds the immediate exactly, everything else as before. -/
def Obligations.LdiLoadsTheImmediate : Prop :=
  ∀ (s : State) (a imm : Byte) (i : Fin 8), a.toNat = i.val →
    exec (.ldi a imm) s = .next { s with regs := s.regs.set i imm, pc := s.pc + ((s.ir >>> 6) + 1) }

/-- 42_alu.md R101, by ADD: the sum modulo 256, no flag. -/
def Obligations.AddWritesTheSumModulo256 : Prop :=
  ∀ (s : State) (a b : Byte) (i j : Fin 8), a.toNat = i.val → b.toNat = j.val →
    exec (.add a b) s = .next { s with
      regs := s.regs.set i (BitVec.ofNat 8 ((s.regs[i].toNat + s.regs[j].toNat) % 256)),
      pc := s.pc + ((s.ir >>> 6) + 1) }

/-- 42_alu.md R102, by SUB: the mathematical difference modulo 256, no flag. -/
def Obligations.SubWritesTheDifferenceModulo256 : Prop :=
  ∀ (s : State) (a b : Byte) (i j : Fin 8), a.toNat = i.val → b.toNat = j.val →
    exec (.sub a b) s = .next { s with
      regs := s.regs.set i (BitVec.ofInt 8 (((s.regs[i].toNat : Int) - (s.regs[j].toNat : Int)) % 256)),
      pc := s.pc + ((s.ir >>> 6) + 1) }

/-- 42_alu.md R103, by MUL: the low 8 bits of the unsigned product, no flag. -/
def Obligations.MulWritesTheLowByteOfTheProduct : Prop :=
  ∀ (s : State) (a b : Byte) (i j : Fin 8), a.toNat = i.val → b.toNat = j.val →
    exec (.mul a b) s = .next { s with
      regs := s.regs.set i (BitVec.ofNat 8 ((s.regs[i].toNat * s.regs[j].toNat) % 256)),
      pc := s.pc + ((s.ir >>> 6) + 1) }

/-- 42_alu.md, DIV with a divisor that is not 0: the quotient `q` with `q * y <= x < (q + 1) * y`. -/
def Obligations.DivWritesTheQuotient : Prop :=
  ∀ (s : State) (a b : Byte) (i j : Fin 8), a.toNat = i.val → b.toNat = j.val → s.regs[j] ≠ 0 →
    ∃ q : Byte, q.toNat * s.regs[j].toNat ≤ s.regs[i].toNat ∧
      s.regs[i].toNat < (q.toNat + 1) * s.regs[j].toNat ∧
      exec (.div a b) s = .next { s with regs := s.regs.set i q, pc := s.pc + ((s.ir >>> 6) + 1) }

/-- 42_alu.md, CMP: bits 2 to 0 of FL are L, G, E of the unsigned comparison, each set or cleared;
bits 7 to 3 are kept (decision D8), and no register is written. -/
def Obligations.CmpWritesEqualGreaterLess : Prop :=
  ∀ (s : State) (a b : Byte) (i j : Fin 8), a.toNat = i.val → b.toNat = j.val →
    ∃ f : Byte, exec (.cmp a b) s = .next { s with fl := f, pc := s.pc + ((s.ir >>> 6) + 1) } ∧
      f.getLsbD 0 = decide (s.regs[i].toNat = s.regs[j].toNat) ∧
      f.getLsbD 1 = decide (s.regs[i].toNat > s.regs[j].toNat) ∧
      f.getLsbD 2 = decide (s.regs[i].toNat < s.regs[j].toNat) ∧
      f >>> 3 = s.fl >>> 3

/-- 42_alu.md R105, by INC. -/
def Obligations.IncAddsOneModulo256 : Prop :=
  ∀ (s : State) (a : Byte) (i : Fin 8), a.toNat = i.val →
    exec (.inc a) s = .next { s with
      regs := s.regs.set i (BitVec.ofNat 8 ((s.regs[i].toNat + 1) % 256)), pc := s.pc + ((s.ir >>> 6) + 1) }

/-- 42_alu.md R106, by DEC. -/
def Obligations.DecSubtractsOneModulo256 : Prop :=
  ∀ (s : State) (a : Byte) (i : Fin 8), a.toNat = i.val →
    exec (.dec a) s = .next { s with
      regs := s.regs.set i (BitVec.ofNat 8 ((s.regs[i].toNat + 255) % 256)), pc := s.pc + ((s.ir >>> 6) + 1) }

/-- 43_stack.md, PUSH of a register other than 7: SP down by 1, the register's byte at the new SP. -/
def Obligations.PushDecrementsSpThenStores : Prop :=
  ∀ (s : State) (a : Byte) (i : Fin 8), a.toNat = i.val → i ≠ 7 →
    exec (.push a) s = .next { s with
      regs := s.regs.set 7 (s.regs[7] - 1), mem := Memory.write s.mem (s.regs[7] - 1) s.regs[i],
      pc := s.pc + ((s.ir >>> 6) + 1) }

/-- 43_stack.md, POP into a register other than 7: the byte at SP, then SP up by 1, memory unchanged. -/
def Obligations.PopLoadsThenIncrementsSp : Prop :=
  ∀ (s : State) (a : Byte) (i : Fin 8), a.toNat = i.val → i ≠ 7 →
    exec (.pop a) s = .next { s with
      regs := (s.regs.set i (Memory.read s.mem s.regs[7])).set 7 (s.regs[7] + 1),
      pc := s.pc + ((s.ir >>> 6) + 1) }

/-- 43_stack.md, the operand is SP itself: PUSH R7 stores the decremented SP, POP R7 leaves the loaded
byte plus 1 in SP. The spec's decision D9 (log 6). -/
def Obligations.PushAndPopOfTheStackPointer : Prop :=
  ∀ s : State,
    exec (.push 7) s = .next { s with
      regs := s.regs.set 7 (s.regs[7] - 1), mem := Memory.write s.mem (s.regs[7] - 1) (s.regs[7] - 1),
      pc := s.pc + ((s.ir >>> 6) + 1) } ∧
    exec (.pop 7) s = .next { s with
      regs := s.regs.set 7 (Memory.read s.mem s.regs[7] + 1), pc := s.pc + ((s.ir >>> 6) + 1) }

/-- 44_output.md, PRN: one raw byte more on the output port, everything else as before. -/
def Obligations.PrnEmitsTheRegisterByte : Prop :=
  ∀ (s : State) (a : Byte) (i : Fin 8), a.toNat = i.val →
    exec (.prn a) s = .next { s with out := s.out ++ [s.regs[i]], pc := s.pc + ((s.ir >>> 6) + 1) }

/-- 40_step_cycle.md R77, by JMP and by JEQ and JNE taken: `pc` is the register's value, whatever IR
holds, and nothing else changes. -/
def Obligations.TakenBranchSetsPcToTheRegister : Prop :=
  ∀ (s : State) (a : Byte) (i : Fin 8), a.toNat = i.val →
    exec (.jmp a) s = .next { s with pc := s.regs[i] } ∧
    (s.fl.getLsbD 0 = true → exec (.jeq a) s = .next { s with pc := s.regs[i] }) ∧
    (s.fl.getLsbD 0 = false → exec (.jne a) s = .next { s with pc := s.regs[i] })

/-- 45_branch.md R144: with Equal set JEQ jumps and JNE falls through, with Equal clear the reverse. -/
def Obligations.JeqAndJneAreOpposite : Prop :=
  ∀ (s : State) (a : Byte) (i : Fin 8), a.toNat = i.val →
    (s.fl.getLsbD 0 = true →
      exec (.jeq a) s = .next { s with pc := s.regs[i] } ∧
      exec (.jne a) s = .next { s with pc := s.pc + ((s.ir >>> 6) + 1) }) ∧
    (s.fl.getLsbD 0 = false →
      exec (.jeq a) s = .next { s with pc := s.pc + ((s.ir >>> 6) + 1) } ∧
      exec (.jne a) s = .next { s with pc := s.regs[i] })

/-- 46_halt.md, HLT: PC past the HLT byte, Halted with cause 0, everything else as before. -/
def Obligations.HltHaltsCleanly : Prop :=
  ∀ s : State, exec .hlt s = .next { s with pc := s.pc + ((s.ir >>> 6) + 1), run := .halted, cause := 0 }

/-! ## Frames, and what only some instruction may do -/

/-- The frame of the instructions that write one register: LDI, ADD, SUB, MUL, DIV, INC, DEC change no
register but `a`, no flag, not IR, no output and no byte of memory; the run state and the fault record stay
too, unless the instruction takes one of its faults, and then nothing else changed. -/
def Obligations.RegisterWritersFrame : Prop :=
  ∀ (a b : Byte) (i : Instr),
    i ∈ [Instr.ldi a b, .add a b, .sub a b, .mul a b, .div a b, .inc a, .dec a] →
    ∀ s t : State, exec i s = .next t →
      (∀ k : Fin 8, k.val ≠ a.toNat → t.regs[k] = s.regs[k]) ∧ t.fl = s.fl ∧ t.ir = s.ir ∧ t.out = s.out ∧
      (∀ addr, Memory.read t.mem addr = Memory.read s.mem addr) ∧
      ((t.run = s.run ∧ t.cause = s.cause ∧ t.info = s.info) ∨
        (t = { s with run := .halted, cause := t.cause, info := s.ir } ∧
          ((t.cause = 3 ∧ ∃ r ∈ i.regOperands, 7 < r.toNat) ∨ (t.cause = 2 ∧ DividesByZero i s))))

/-- The frame of CMP: no register, no byte of memory, no output, not IR, not bits 7 to 3 of FL; the run
state and the fault record stay too, unless it takes RegIndexFault, and then nothing else changed. -/
def Obligations.CmpFrame : Prop :=
  ∀ (a b : Byte) (s t : State), exec (.cmp a b) s = .next t →
    t.regs = s.regs ∧ t.fl >>> 3 = s.fl >>> 3 ∧ t.ir = s.ir ∧ t.out = s.out ∧
    (∀ addr, Memory.read t.mem addr = Memory.read s.mem addr) ∧
    ((t.run = s.run ∧ t.cause = s.cause ∧ t.info = s.info) ∨
      (t = { s with run := .halted, cause := 3, info := s.ir } ∧ (7 < a.toNat ∨ 7 < b.toNat)))

/-- The frame of PUSH: no register but 7, no flag, not IR, no output, and no byte of memory but the one at
`pushAddr s`; the run state and the fault record stay too, unless it takes RegIndexFault, and then nothing
else changed, memory included. -/
def Obligations.PushFrame : Prop :=
  ∀ (a : Byte) (s t : State), exec (.push a) s = .next t →
    (∀ k : Fin 8, k ≠ 7 → t.regs[k] = s.regs[k]) ∧ t.fl = s.fl ∧ t.ir = s.ir ∧ t.out = s.out ∧
    (∀ addr, addr ≠ pushAddr s → Memory.read t.mem addr = Memory.read s.mem addr) ∧
    ((t.run = s.run ∧ t.cause = s.cause ∧ t.info = s.info) ∨
      (t = { s with run := .halted, cause := 3, info := s.ir } ∧ 7 < a.toNat))

/-- The frame of POP: no register but the destination and 7, no flag, not IR, no output, no byte of memory;
the run state and the fault record stay too, unless it takes RegIndexFault, and then nothing else changed. -/
def Obligations.PopFrame : Prop :=
  ∀ (a : Byte) (s t : State), exec (.pop a) s = .next t →
    (∀ k : Fin 8, k ≠ 7 → k.val ≠ a.toNat → t.regs[k] = s.regs[k]) ∧ t.fl = s.fl ∧ t.ir = s.ir ∧
    t.out = s.out ∧ (∀ addr, Memory.read t.mem addr = Memory.read s.mem addr) ∧
    ((t.run = s.run ∧ t.cause = s.cause ∧ t.info = s.info) ∨
      (t = { s with run := .halted, cause := 3, info := s.ir } ∧ 7 < a.toNat))

/-- The frame of PRN, JMP, JEQ, JNE and HLT: no register, no flag, not IR, no byte of memory; no output but
PRN's; the run state and the fault record stay too, but for HLT's halt and a RegIndexFault, with which
nothing else changed. -/
def Obligations.OutputBranchAndHaltFrame : Prop :=
  ∀ (a : Byte) (i : Instr), i ∈ [Instr.prn a, .jmp a, .jeq a, .jne a, .hlt] →
    ∀ s t : State, exec i s = .next t →
      t.regs = s.regs ∧ t.fl = s.fl ∧ t.ir = s.ir ∧
      (∀ addr, Memory.read t.mem addr = Memory.read s.mem addr) ∧ (i ≠ .prn a → t.out = s.out) ∧
      ((t.run = s.run ∧ t.cause = s.cause ∧ t.info = s.info) ∨
        (i = .hlt ∧ t.run = .halted ∧ t.cause = 0 ∧ t.info = s.info) ∨
        (t = { s with run := .halted, cause := 3, info := s.ir } ∧ ∃ r ∈ i.regOperands, 7 < r.toNat))

/-- 10_state.md section 4: a step that changes FL is a step of CMP. -/
def Obligations.OnlyCmpChangesFlags : Prop :=
  ∀ s t : State, s.run = .running → step s = .next t → t.fl ≠ s.fl → ∃ a b,
    decode (Memory.read s.mem s.pc) (Memory.read s.mem (s.pc + 1)) (Memory.read s.mem (s.pc + 2)) =
      .ok (.cmp a b)

/-- 20_memory.md section 1: a step that changes a byte of memory is a step of PUSH, and the byte is the one
at the new SP. -/
def Obligations.OnlyPushChangesMemory : Prop :=
  ∀ (s t : State) (addr : Byte), s.run = .running → step s = .next t →
    Memory.read t.mem addr ≠ Memory.read s.mem addr →
    addr = t.regs[7] ∧ ∃ a,
      decode (Memory.read s.mem s.pc) (Memory.read s.mem (s.pc + 1)) (Memory.read s.mem (s.pc + 2)) =
        .ok (.push a)

/-- 10_state.md R19: `out` is empty at reset, each executed PRN appends one byte to it, no other
instruction does, and no instruction reads it: whatever was emitted before, the same step happens. -/
def Obligations.OutputIsAppendedByPrnAndNeverRead : Prop :=
  State.reset.out = [] ∧
  (∀ (s : State) (a : Byte) (i : Fin 8), a.toNat = i.val →
    ∃ t, exec (.prn a) s = .next t ∧ t.out = s.out ++ [s.regs[i]]) ∧
  (∀ (i : Instr) (s t : State), exec i s = .next t → (∀ a, i ≠ .prn a) → t.out = s.out) ∧
  ∀ (s t : State) (before : List Byte), step s = .next t →
    step { s with out := before ++ s.out } = .next { t with out := before ++ t.out }

/-- 10_state.md section 10: G, L, IR, `cause`, `info` and `out` cannot be observed by a program. Two states
that agree on the general registers, E, memory, PC and the run state still agree on them after any
number of steps. -/
def Obligations.UnobservableStateNeverMatters : Prop :=
  ∀ (n : Nat) (s t s' : State), SameToProgram s t → Host.Core.run Sys2Proof.core n s = .next s' →
    ∃ t', Host.Core.run Sys2Proof.core n t = .next t' ∧ SameToProgram s' t'

/-- 43_stack.md, the stack law, for registers other than 7: PUSH then POP restores the value into the
destination and SP to its old value; SP goes down by exactly 1 and up by exactly 1 modulo 256. -/
def Obligations.PushThenPopRestores : Prop :=
  ∀ (s : State) (a b : Byte) (i j : Fin 8), a.toNat = i.val → b.toNat = j.val → i ≠ 7 → j ≠ 7 →
    ∃ t u, exec (.push a) s = .next t ∧ exec (.pop b) t = .next u ∧
      t.regs[7] = s.regs[7] - 1 ∧ u.regs[j] = s.regs[i] ∧ u.regs[7] = s.regs[7] ∧
      (∀ k : Fin 8, k ≠ j → u.regs[k] = s.regs[k])

/-- 43_stack.md, SP wrap-around: SP wraps at both ends with no fault, and 256 PUSHes, of any registers,
overwrite every cell and return SP to its starting value: the cell of the k-th PUSH holds the pushed
register, and for register 7 the decremented SP, which is the cell's own address. The register 7 cases of
PUSH and POP are the spec's decision D9 (log 6). -/
def Obligations.StackPointerWrapsAndFillsMemory : Prop :=
  (∀ (s : State) (a : Byte) (i : Fin 8), a.toNat = i.val → s.regs[7] = 0x00 →
    ∃ t, exec (.push a) s = .next t ∧ t.run = s.run ∧ t.cause = s.cause ∧ t.regs[7] = 0xFF ∧
      Memory.read t.mem 0xFF = if i = 7 then 0xFF else s.regs[i]) ∧
  (∀ (s : State) (a : Byte) (i : Fin 8), a.toNat = i.val → s.regs[7] = 0xFF →
    ∃ t, exec (.pop a) s = .next t ∧ t.run = s.run ∧ t.cause = s.cause ∧
      (i ≠ 7 → t.regs[7] = 0x00 ∧ t.regs[i] = Memory.read s.mem 0xFF) ∧
      (i = 7 → t.regs[7] = Memory.read s.mem 0xFF + 1)) ∧
  ∀ (s : State) (ops : List Byte), ops.length = 256 → (∀ r ∈ ops, r.toNat ≤ 7) →
    ∃ t, execAll (ops.map Instr.push) s = .next t ∧ t.regs[7] = s.regs[7] ∧
      ∀ (k : Nat) (r : Byte) (j : Fin 8), ops[k]? = some r → r.toNat = j.val →
        Memory.read t.mem (s.regs[7] - 1 - BitVec.ofNat 8 k) =
          if j = 7 then s.regs[7] - 1 - BitVec.ofNat 8 k else s.regs[j]
end

