-- ==== Sys2Proof/Laws/Alu.lean ====
section
/-! SUPPORT. The ALU's operations as the arithmetic of bit vectors, and the compare bits. -/

namespace Sys2Proof.Machine

/-- ADD is addition modulo 256. -/
@[simp] theorem aluAdd_eq (a b : Byte) : aluAdd a b = a + b := by
  apply BitVec.eq_of_toNat_eq; simp [aluAdd, BitVec.toNat_add]

/-- SUB is subtraction modulo 256. -/
@[simp] theorem aluSub_eq (a b : Byte) : aluSub a b = a - b := by
  apply BitVec.eq_of_toNat_eq
  have ha := a.isLt
  have hb := b.isLt
  simp only [aluSub, BitVec.toNat_ofInt, BitVec.toNat_sub]
  omega

/-- MUL is multiplication modulo 256. -/
@[simp] theorem aluMul_eq (a b : Byte) : aluMul a b = a * b := by
  apply BitVec.eq_of_toNat_eq; simp [aluMul, BitVec.toNat_mul]

/-- INC adds 1. -/
@[simp] theorem aluInc_eq (a : Byte) : aluInc a = a + 1 := by
  apply BitVec.eq_of_toNat_eq; simp [aluInc, BitVec.toNat_add]

/-- DEC subtracts 1. -/
@[simp] theorem aluDec_eq (a : Byte) : aluDec a = a - 1 := by
  have h := aluSub_eq a 1
  simpa [aluSub, aluDec] using h

/-- DIV by a divisor that is not 0. -/
theorem aluDiv_of_ne {a b : Byte} (h : b ≠ 0) : aluDiv a b = some (BitVec.ofNat 8 (a.toNat / b.toNat)) := by
  have : b.toNat ≠ 0 := fun hb => h (by apply BitVec.eq_of_toNat_eq; simpa using hb)
  simp [aluDiv, this]

/-- DIV by 0 has no result. -/
@[simp] theorem aluDiv_zero (a : Byte) : aluDiv a 0#8 = none := by simp [aluDiv]

/-- DIV has no result exactly when the divisor is 0. -/
theorem aluDiv_eq_none {a b : Byte} : aluDiv a b = none ↔ b = 0 := by
  constructor
  · intro h
    by_contra hb
    rw [aluDiv_of_ne hb] at h
    cases h
  · rintro rfl
    exact aluDiv_zero a

/-- The instruction size of IR, `ir[7:6] + 1`. -/
theorem instrSize_eq (ir : Byte) : instrSize ir = (ir >>> 6) + 1 := by
  apply BitVec.eq_of_toNat_eq
  have h := ir.isLt
  simp only [instrSize, operandCount, BitVec.toNat_add, BitVec.toNat_setWidth, BitVec.extractLsb'_toNat,
    BitVec.toNat_ushiftRight, Nat.shiftRight_eq_div_pow]
  omega

/-- After a compare FL is its bits 7 to 3 with exactly one of E, G, L. -/
theorem writeEgl_compare (fl a b : Byte) :
    writeEgl fl (compareEgl a b) =
      (fl &&& 0xF8) ||| (if a.toNat = b.toNat then 0x01 else if a.toNat > b.toNat then 0x02 else 0x04) := by
  unfold writeEgl compareEgl
  rcases lt_trichotomy a.toNat b.toNat with h | h | h
  · have h1 : ¬ a.toNat = b.toNat := by omega
    have h2 : ¬ b.toNat < a.toNat := by omega
    simp [h, h1, h2, gt_iff_lt]
  · simp [h]
  · have h1 : ¬ a.toNat = b.toNat := by omega
    have h2 : ¬ a.toNat < b.toNat := by omega
    simp [h, h1, h2, gt_iff_lt]

end Sys2Proof.Machine
end

