-- ==== Sys2Proof/Laws/Decode.lean ====
section
/-! SUPPORT. What the decoder can answer. -/

namespace Sys2Proof

/-- The only way the decoder refuses: by the name of the opcode byte. -/
theorem decode_error {op a b : Byte} {e : DecodeReject} (h : decode op a b = .error e) :
    e = .invalidOpcode op := by
  unfold decode at h
  split at h
  · cases h
  · cases h; rfl

/-- An accepted opcode byte is the opcode of the instruction it decodes to. -/
theorem decode_opcode {op a b : Byte} {i : Instr} (h : decode op a b = .ok i) : op = i.opcode := by
  unfold decode at h
  split at h
  · rename_i row hrow
    have hop : row.1 = op := by simpa using List.find?_some hrow
    have hmem := List.mem_of_find?_eq_some hrow
    cases h
    subst hop
    simp only [dispatchTable, List.cons_append, List.nil_append, List.mem_cons, List.not_mem_nil, or_false] at hmem
    rcases hmem with rfl | rfl | rfl | rfl | rfl | rfl | rfl | rfl | rfl | rfl | rfl | rfl | rfl | rfl | rfl <;> rfl
  · cases h

end Sys2Proof
end

