-- ==== Sys2Proof/Laws/Operands.lean ====
section
/-! SUPPORT. The operand forms: what a register operand byte names, and what each form answers. -/

namespace Sys2Proof.Machine

/-- The byte of a register's number names that register. -/
theorem regIndexOf_of_toNat {a : Byte} {i : Fin 8} (h : a.toNat = i.val) : regIndexOf a = some i := by
  simp [regIndexOf, h]

/-- A byte above 7 names no register. -/
theorem regIndexOf_of_gt {a : Byte} (h : 7 < a.toNat) : regIndexOf a = none := by
  have : ¬ a.toNat < 8 := by omega
  simp [regIndexOf, this]

/-- Every byte either names one register or is above 7. -/
theorem regIndexOf_cases (a : Byte) :
    (∃ i : Fin 8, a.toNat = i.val ∧ regIndexOf a = some i) ∨ (7 < a.toNat ∧ regIndexOf a = none) := by
  by_cases h : a.toNat < 8
  · exact .inl ⟨⟨a.toNat, h⟩, rfl, regIndexOf_of_toNat rfl⟩
  · exact .inr ⟨by omega, regIndexOf_of_gt (by omega)⟩

/-- A one-register form on a byte that names register `i`. -/
theorem withReg_of_toNat {a : Byte} {i : Fin 8} (h : a.toNat = i.val) (k : Fin 8 → HandlerOutcome) :
    withReg a k = k i := by
  simp [withReg, regIndexOf_of_toNat h]

/-- A one-register form on a byte above 7. -/
theorem withReg_of_gt {a : Byte} (h : 7 < a.toNat) (k : Fin 8 → HandlerOutcome) :
    withReg a k = .fault .regIndexFault := by
  simp [withReg, regIndexOf_of_gt h]

/-- A two-register form on bytes that name registers `i` and `j`. -/
theorem withRegPair_of_toNat {a b : Byte} {i j : Fin 8} (hi : a.toNat = i.val) (hj : b.toNat = j.val)
    (k : Fin 8 → Fin 8 → HandlerOutcome) : withRegPair a b k = k i j := by
  simp [withRegPair, withReg_of_toNat hi, withReg_of_toNat hj]

/-- A two-register form with a byte above 7 on either side. -/
theorem withRegPair_of_gt {a b : Byte} (h : 7 < a.toNat ∨ 7 < b.toNat)
    (k : Fin 8 → Fin 8 → HandlerOutcome) : withRegPair a b k = .fault .regIndexFault := by
  rcases h with ha | hb
  · simp [withRegPair, withReg_of_gt ha]
  · rcases regIndexOf_cases a with ⟨i, hi, -⟩ | ⟨ha, -⟩
    · simp [withRegPair, withReg_of_toNat hi, withReg_of_gt hb]
    · simp [withRegPair, withReg_of_gt ha]

/-- Everything a one-register form can answer. -/
theorem withReg_cases (a : Byte) (k : Fin 8 → HandlerOutcome) :
    (∃ i : Fin 8, a.toNat = i.val ∧ withReg a k = k i) ∨
      (7 < a.toNat ∧ withReg a k = .fault .regIndexFault) := by
  rcases regIndexOf_cases a with ⟨i, hi, -⟩ | ⟨ha, -⟩
  · exact .inl ⟨i, hi, withReg_of_toNat hi k⟩
  · exact .inr ⟨ha, withReg_of_gt ha k⟩

/-- Everything a two-register form can answer. -/
theorem withRegPair_cases (a b : Byte) (k : Fin 8 → Fin 8 → HandlerOutcome) :
    (∃ i j : Fin 8, a.toNat = i.val ∧ b.toNat = j.val ∧ withRegPair a b k = k i j) ∨
      ((7 < a.toNat ∨ 7 < b.toNat) ∧ withRegPair a b k = .fault .regIndexFault) := by
  rcases regIndexOf_cases a with ⟨i, hi, -⟩ | ⟨ha, -⟩
  · rcases regIndexOf_cases b with ⟨j, hj, -⟩ | ⟨hb, -⟩
    · exact .inl ⟨i, j, hi, hj, withRegPair_of_toNat hi hj k⟩
    · exact .inr ⟨.inr hb, withRegPair_of_gt (.inr hb) k⟩
  · exact .inr ⟨.inl ha, withRegPair_of_gt (.inl ha) k⟩

end Sys2Proof.Machine
end

