-- ==== Sys2Proof/Laws/Exec.lean ====
section
/-! SUPPORT. Everything `exec` can do, said once: every instruction's handler outcome with the operands
that lead to it, and `exec` as that outcome completed. -/

namespace Sys2Proof.Machine

/-- The handler outcomes of every instruction in state `s`. -/
inductive HandlerCase (s : State) : Instr → HandlerOutcome → Prop where
  | ldi {a imm : Byte} {i : Fin 8} (hi : a.toNat = i.val) : HandlerCase s (.ldi a imm) (.next (s.setReg i imm))
  | add {a b : Byte} {i j : Fin 8} (hi : a.toNat = i.val) (hj : b.toNat = j.val) :
      HandlerCase s (.add a b) (.next (s.setReg i (aluAdd s.regs[i] s.regs[j])))
  | sub {a b : Byte} {i j : Fin 8} (hi : a.toNat = i.val) (hj : b.toNat = j.val) :
      HandlerCase s (.sub a b) (.next (s.setReg i (aluSub s.regs[i] s.regs[j])))
  | mul {a b : Byte} {i j : Fin 8} (hi : a.toNat = i.val) (hj : b.toNat = j.val) :
      HandlerCase s (.mul a b) (.next (s.setReg i (aluMul s.regs[i] s.regs[j])))
  | div {a b q : Byte} {i j : Fin 8} (hi : a.toNat = i.val) (hj : b.toNat = j.val)
      (hq : aluDiv s.regs[i] s.regs[j] = some q) : HandlerCase s (.div a b) (.next (s.setReg i q))
  | divZero {a b : Byte} {i j : Fin 8} (hi : a.toNat = i.val) (hj : b.toNat = j.val)
      (hq : aluDiv s.regs[i] s.regs[j] = none) : HandlerCase s (.div a b) (.fault .divisionByZero)
  | cmp {a b : Byte} {i j : Fin 8} (hi : a.toNat = i.val) (hj : b.toNat = j.val) :
      HandlerCase s (.cmp a b) (.next (s.setFl (writeEgl s.fl (compareEgl s.regs[i] s.regs[j]))))
  | inc {a : Byte} {i : Fin 8} (hi : a.toNat = i.val) :
      HandlerCase s (.inc a) (.next (s.setReg i (aluInc s.regs[i])))
  | dec {a : Byte} {i : Fin 8} (hi : a.toNat = i.val) :
      HandlerCase s (.dec a) (.next (s.setReg i (aluDec s.regs[i])))
  | push {a : Byte} {i : Fin 8} (hi : a.toNat = i.val) : HandlerCase s (.push a) (.next (pushReg i s))
  | pop {a : Byte} {i : Fin 8} (hi : a.toNat = i.val) : HandlerCase s (.pop a) (.next (popReg i s))
  | prn {a : Byte} {i : Fin 8} (hi : a.toNat = i.val) : HandlerCase s (.prn a) (.next (s.output s.regs[i]))
  | jmp {a : Byte} {i : Fin 8} (hi : a.toNat = i.val) : HandlerCase s (.jmp a) (.jump s.regs[i] s)
  | jeqTaken {a : Byte} {i : Fin 8} (hi : a.toNat = i.val) (he : flagE s.fl = true) :
      HandlerCase s (.jeq a) (.jump s.regs[i] s)
  | jeqNot {a : Byte} {i : Fin 8} (hi : a.toNat = i.val) (he : flagE s.fl = false) :
      HandlerCase s (.jeq a) (.next s)
  | jneTaken {a : Byte} {i : Fin 8} (hi : a.toNat = i.val) (he : flagE s.fl = false) :
      HandlerCase s (.jne a) (.jump s.regs[i] s)
  | jneNot {a : Byte} {i : Fin 8} (hi : a.toNat = i.val) (he : flagE s.fl = true) :
      HandlerCase s (.jne a) (.next s)
  | hlt : HandlerCase s .hlt (.halt s)
  | badReg {i : Instr} (h : ∃ r ∈ i.regOperands, 7 < r.toNat) : HandlerCase s i (.fault .regIndexFault)

/-- A handler that is one register's form. -/
theorem handlerCase_withReg {s : State} {ins : Instr} {a : Byte} (hops : ins.regOperands = [a])
    (k : Fin 8 → HandlerOutcome) (hk : ∀ i : Fin 8, a.toNat = i.val → HandlerCase s ins (k i)) :
    HandlerCase s ins (withReg a k) := by
  rcases withReg_cases a k with ⟨i, hi, he⟩ | ⟨ha, he⟩
  · rw [he]; exact hk i hi
  · rw [he]; exact .badReg ⟨a, by simp [hops], ha⟩

/-- A handler that is two registers' form. -/
theorem handlerCase_withRegPair {s : State} {ins : Instr} {a b : Byte} (hops : ins.regOperands = [a, b])
    (k : Fin 8 → Fin 8 → HandlerOutcome)
    (hk : ∀ i j : Fin 8, a.toNat = i.val → b.toNat = j.val → HandlerCase s ins (k i j)) :
    HandlerCase s ins (withRegPair a b k) := by
  rcases withRegPair_cases a b k with ⟨i, j, hi, hj, he⟩ | ⟨h, he⟩
  · rw [he]; exact hk i j hi hj
  · rw [he]
    rcases h with h | h
    · exact .badReg ⟨a, by simp [hops], h⟩
    · exact .badReg ⟨b, by simp [hops], h⟩

/-- Everything `exec` can do: it answers the completion of one of its instruction's handler cases. -/
theorem exec_cases (ins : Instr) (s : State) :
    ∃ r, HandlerCase s ins r ∧ exec ins s = .next (complete s r) := by
  cases ins with
  | ldi a imm => exact ⟨_, handlerCase_withReg rfl _ fun i hi => .ldi hi, rfl⟩
  | add a b => exact ⟨_, handlerCase_withRegPair rfl _ fun i j hi hj => .add hi hj, rfl⟩
  | sub a b => exact ⟨_, handlerCase_withRegPair rfl _ fun i j hi hj => .sub hi hj, rfl⟩
  | mul a b => exact ⟨_, handlerCase_withRegPair rfl _ fun i j hi hj => .mul hi hj, rfl⟩
  | div a b =>
    refine ⟨_, handlerCase_withRegPair rfl _ fun i j hi hj => ?_, rfl⟩
    cases hq : aluDiv s.regs[i] s.regs[j] with
    | none =>
      have hr : aluDiv (s.reg i) (s.reg j) = none := hq
      simp only [alu, hr, aluToState]
      exact .divZero hi hj hq
    | some q =>
      have hr : aluDiv (s.reg i) (s.reg j) = some q := hq
      simp only [alu, hr, aluToState]
      exact .div hi hj hq
  | cmp a b => exact ⟨_, handlerCase_withRegPair rfl _ fun i j hi hj => .cmp hi hj, rfl⟩
  | inc a => exact ⟨_, handlerCase_withReg rfl _ fun i hi => .inc hi, rfl⟩
  | dec a => exact ⟨_, handlerCase_withReg rfl _ fun i hi => .dec hi, rfl⟩
  | push a => exact ⟨_, handlerCase_withReg rfl _ fun i hi => .push hi, rfl⟩
  | pop a => exact ⟨_, handlerCase_withReg rfl _ fun i hi => .pop hi, rfl⟩
  | prn a => exact ⟨_, handlerCase_withReg rfl _ fun i hi => .prn hi, rfl⟩
  | jmp a => exact ⟨_, handlerCase_withReg rfl _ fun i hi => .jmp hi, rfl⟩
  | jeq a =>
    refine ⟨_, handlerCase_withReg rfl _ fun i hi => ?_, rfl⟩
    cases he : flagE s.fl with
    | true => exact .jeqTaken hi he
    | false => exact .jeqNot hi he
  | jne a =>
    refine ⟨_, handlerCase_withReg rfl _ fun i hi => ?_, rfl⟩
    cases he : flagE s.fl with
    | true => exact .jneNot hi he
    | false => exact .jneTaken hi he
  | hlt => exact ⟨_, .hlt, rfl⟩

/-- What follows each handler outcome. -/
@[simp] theorem complete_next (s t : State) : complete s (.next t) = advancePc t := rfl

@[simp] theorem complete_jump (s t : State) (target : Byte) :
    complete s (.jump target t) = t.setPc target := rfl

@[simp] theorem complete_halt (s t : State) : complete s (.halt t) = haltClean (advancePc t) := rfl

@[simp] theorem complete_fault (s : State) (f : FaultKind) : complete s (.fault f) = raise f s.ir s := rfl

end Sys2Proof.Machine
end

