-- ==== Sys2Proof/Laws/Step.lean ====
section
/-! SUPPORT. Everything `step` can do, said once, with the fetched bytes as reads of memory. -/

namespace Sys2Proof.Machine

/-- Phase 1 in full. -/
theorem fetchOpcode_eq (s : State) : fetchOpcode s = { s with ir := Memory.read s.mem s.pc } := rfl

/-- operandA after phase 1. -/
theorem fetchOperandA_fetchOpcode (s : State) :
    fetchOperandA (fetchOpcode s) = Memory.read s.mem (s.pc + 1) := by
  simp [fetchOperandA, fetchOpcode, State.memRead]

/-- operandB after phase 1. -/
theorem fetchOperandB_fetchOpcode (s : State) :
    fetchOperandB (fetchOpcode s) = Memory.read s.mem (s.pc + 2) := by
  simp [fetchOperandB, fetchOpcode, State.memRead]

/-- What the decoder is given in a step, as reads of memory. -/
theorem decode_fetched (s : State) :
    decode (fetchOpcode s).ir (fetchOperandA (fetchOpcode s)) (fetchOperandB (fetchOpcode s)) =
      decode (Memory.read s.mem s.pc) (Memory.read s.mem (s.pc + 1)) (Memory.read s.mem (s.pc + 2)) := by
  rw [fetchOperandA_fetchOpcode, fetchOperandB_fetchOpcode, fetchOpcode_eq]

/-- A step while Halted. -/
theorem step_of_halted {s : State} (h : s.run = .halted) : step s = .next s := by
  simp [step, h]

/-- A step on an opcode the decoder refuses. -/
theorem step_of_error {s : State} (h : s.run = .running) {e : DecodeReject}
    (hd : decode (Memory.read s.mem s.pc) (Memory.read s.mem (s.pc + 1)) (Memory.read s.mem (s.pc + 2)) =
      .error e) :
    step s = .next (raise .invalidOpcode (Memory.read s.mem s.pc) (fetchOpcode s)) := by
  have he := decode_error hd
  subst he
  simp only [step, h, decode_fetched, hd]

/-- A step on an opcode the decoder accepts. -/
theorem step_of_ok {s : State} (h : s.run = .running) {i : Instr}
    (hd : decode (Memory.read s.mem s.pc) (Memory.read s.mem (s.pc + 1)) (Memory.read s.mem (s.pc + 2)) =
      .ok i) :
    step s = exec i (fetchOpcode s) := by
  simp only [step, h, decode_fetched, hd]

/-- Everything a step can do: nothing while Halted; InvalidOpcode; or one handler case of the decoded
instruction, completed. -/
theorem step_cases (s : State) :
    (s.run = .halted ∧ step s = .next s) ∨
    (∃ e, s.run = .running ∧
      decode (Memory.read s.mem s.pc) (Memory.read s.mem (s.pc + 1)) (Memory.read s.mem (s.pc + 2)) = .error e ∧
      step s = .next (raise .invalidOpcode (Memory.read s.mem s.pc) (fetchOpcode s))) ∨
    (∃ i r, s.run = .running ∧
      decode (Memory.read s.mem s.pc) (Memory.read s.mem (s.pc + 1)) (Memory.read s.mem (s.pc + 2)) = .ok i ∧
      HandlerCase (fetchOpcode s) i r ∧ step s = .next (complete (fetchOpcode s) r)) := by
  cases h : s.run with
  | halted => exact .inl ⟨rfl, step_of_halted h⟩
  | running =>
    cases hd : decode (Memory.read s.mem s.pc) (Memory.read s.mem (s.pc + 1)) (Memory.read s.mem (s.pc + 2)) with
    | error e => exact .inr (.inl ⟨e, rfl, rfl, step_of_error h hd⟩)
    | ok i =>
      obtain ⟨r, hr, he⟩ := exec_cases i (fetchOpcode s)
      exact .inr (.inr ⟨i, r, rfl, rfl, hr, (step_of_ok h hd).trans he⟩)

end Sys2Proof.Machine
end

