-- ==== Sys2Proof/Laws/Driver.lean ====
section
/-! SUPPORT. Everything a driver request can do, said once. -/

namespace Sys2Proof.Machine

/-- During a run: a step was performed and the core is Running. -/
theorem inRun_eq_true {d : Session} : inRun d = true ↔ d.started = true ∧ d.core.run = .running := by
  simp [inRun]

/-- A loaded state is the old one with another memory. -/
theorem loadImage_eq {image : List Byte} {s t : State} (h : loadImage image s = some t) :
    t = { s with mem := t.mem } := by
  unfold loadImage at h
  split at h <;> cases h
  rfl

/-- A step asked by the driver, from what the step answers. -/
theorem driveStep_of_next {d : Session} {t : State} (h : step d.core = .next t) :
    driveStep d = .next { core := t, started := d.started || decide (d.core.run = .running) } := by
  simp [driveStep, h]

/-- Everything an admitted request can do: reset the core, load an image outside a run, or step. -/
theorem drive_cases {r : DriverRequest} {d e : Session} (h : drive r d = some (.next e)) :
    (r = .reset ∧ e = { core := applyReset d.core, started := false }) ∨
    (∃ image t, r = .load image ∧ inRun d = false ∧ loadImage image d.core = some t ∧ e = { d with core := t }) ∨
    (∃ t, r = .step ∧ step d.core = .next t ∧
      e = { core := t, started := d.started || decide (d.core.run = .running) }) := by
  cases r with
  | reset => cases h; exact .inl ⟨rfl, rfl⟩
  | load image =>
    simp only [drive] at h
    split at h
    · cases h
    · rename_i hrun
      split at h <;> cases h
      rename_i t ht
      exact .inr (.inl ⟨image, t, rfl, by simpa using hrun, ht, rfl⟩)
  | step =>
    simp only [drive, driveStep] at h
    split at h <;> cases h
    rename_i t ht
    exact .inr (.inr ⟨t, rfl, ht, rfl⟩)

end Sys2Proof.Machine
end

