-- ==== Sys2Proof/Laws/Memory.lean ====
section
/-! SUPPORT. The memory operations: read after write, and the canonical form every one of them keeps. -/

namespace Sys2Proof.Machine

/-- A read looks at the first cell listed for its address. -/
theorem Memory.readNat_cons (c : Host.Cell) (m : Memory) (a : Nat) :
    Memory.readNat (c :: m) a = if c.1 = a then c.2 else Memory.readNat m a := by
  by_cases h : c.1 = a <;> simp [Memory.readNat, h]

/-- Nothing listed: every cell reads as an unlisted one. -/
@[simp] theorem Memory.readNat_nil (a : Nat) : Memory.readNat [] a = Config.unlistedByte := rfl

/-- Dropping the cells of one address leaves every other address alone. -/
theorem Memory.readNat_drop (m : Memory) (a b : Nat) :
    Memory.readNat (m.filter (fun c => c.1 != a)) b =
      if b = a then Config.unlistedByte else Memory.readNat m b := by
  induction m with
  | nil => simp
  | cons c m ih =>
    by_cases hc : c.1 = a
    · by_cases hb : b = a
      · simpa [List.filter_cons, hc, hb] using ih
      · have : ¬ a = b := fun h => hb h.symm
        simpa [List.filter_cons, hc, hb, Memory.readNat_cons, this] using ih
    · by_cases hb : b = a
      · subst hb; simpa [List.filter_cons, hc, Memory.readNat_cons] using ih
      · simp [hc, Memory.readNat_cons, ih, hb]

/-- After inserting a cell whose address is not listed, that address reads its byte. -/
theorem Memory.readNat_insertCell (c : Host.Cell) (m : Memory) (h : ∀ d ∈ m, d.1 ≠ c.1) (a : Nat) :
    Memory.readNat (Memory.insertCell c m) a = if c.1 = a then c.2 else Memory.readNat m a := by
  induction m with
  | nil => simp [Memory.insertCell, Memory.readNat_cons]
  | cons d m ih =>
    have hd : d.1 ≠ c.1 := h d (by simp)
    have ih := ih (fun e he => h e (by simp [he]))
    unfold Memory.insertCell
    split
    · simp [Memory.readNat_cons]
    · by_cases ha : d.1 = a
      · have : ¬ c.1 = a := fun hc => hd (ha.trans hc.symm)
        simp [Memory.readNat_cons, ha, this]
      · simp [Memory.readNat_cons, ha, ih]

/-- What every address reads after a write: the byte at its own address, and as before elsewhere. -/
theorem Memory.readNat_write (m : Memory) (addr v : Byte) (a : Nat) :
    Memory.readNat (Memory.write m addr v) a = if addr.toNat = a then v else Memory.readNat m a := by
  by_cases hv : v = Config.unlistedByte
  · by_cases ha : addr.toNat = a
    · simp [Memory.write, hv, Memory.readNat_drop, ha]
    · have : ¬ a = addr.toNat := fun h => ha h.symm
      simp [Memory.write, hv, Memory.readNat_drop, ha, this]
  · have h : ∀ d ∈ m.filter (fun c => c.1 != addr.toNat), d.1 ≠ ((addr.toNat, v) : Host.Cell).1 := by
      intro d hd; simpa using (List.mem_filter.mp hd).2
    simp only [Memory.write, hv, if_false]
    rw [Memory.readNat_insertCell _ _ h, Memory.readNat_drop]
    by_cases ha : addr.toNat = a
    · simp [ha]
    · have : ¬ a = addr.toNat := fun h => ha h.symm
      simp [ha, this]

/-- What every cell reads after `MemWrite`. -/
theorem Memory.read_write (m : Memory) (addr v a : Byte) :
    Memory.read (Memory.write m addr v) a = if addr = a then v else Memory.read m a := by
  simp only [Memory.read, Memory.readNat_write, BitVec.toNat_inj]

/-- The cells of an inserted list are the new cell and the old ones. -/
theorem Memory.mem_insertCell {c d : Host.Cell} {m : Memory} :
    d ∈ Memory.insertCell c m ↔ d = c ∨ d ∈ m := by
  induction m with
  | nil => simp [Memory.insertCell]
  | cons e m ih => unfold Memory.insertCell; split <;> simp [ih, or_left_comm]

/-- Inserting a cell of a new address keeps the addresses rising. -/
theorem Memory.insertCell_rising (c : Host.Cell) (m : Memory) (h : m.Pairwise (fun d e => d.1 < e.1))
    (hnew : ∀ d ∈ m, d.1 ≠ c.1) : (Memory.insertCell c m).Pairwise (fun d e => d.1 < e.1) := by
  induction m with
  | nil => simp [Memory.insertCell]
  | cons d m ih =>
    obtain ⟨hd, hm⟩ := List.pairwise_cons.mp h
    unfold Memory.insertCell
    split
    · rename_i hlt
      refine List.pairwise_cons.mpr ⟨?_, h⟩
      intro e he
      rcases List.mem_cons.mp he with rfl | he
      · exact hlt
      · exact lt_trans hlt (hd e he)
    · rename_i hge
      have hne : d.1 ≠ c.1 := hnew d (by simp)
      refine List.pairwise_cons.mpr ⟨?_, ih hm (fun e he => hnew e (by simp [he]))⟩
      intro e he
      rcases Memory.mem_insertCell.mp he with rfl | he
      · omega
      · exact hd e he

/-- `Memory.write` keeps the canonical form. -/
theorem Memory.write_wf {m : Memory} (h : Memory.wf m) (addr v : Byte) : Memory.wf (Memory.write m addr v) := by
  have hdrop : Memory.wf (m.filter (fun c => c.1 != addr.toNat)) :=
    ⟨h.1.filter _, fun c hc => h.2 c (List.mem_filter.mp hc).1⟩
  by_cases hv : v = Config.unlistedByte
  · simpa [Memory.write, hv] using hdrop
  · have hnew : ∀ d ∈ m.filter (fun c => c.1 != addr.toNat), d.1 ≠ ((addr.toNat, v) : Host.Cell).1 := by
      intro d hd; simpa using (List.mem_filter.mp hd).2
    simp only [Memory.write, hv, if_false]
    refine ⟨Memory.insertCell_rising _ _ hdrop.1 hnew, ?_⟩
    intro c hc
    rcases Memory.mem_insertCell.mp hc with rfl | hc
    · exact ⟨addr.isLt, hv⟩
    · exact hdrop.2 c hc

/-- Placing an image keeps the canonical form. -/
theorem Memory.place_wf {m : Memory} (h : Memory.wf m) (addr : Byte) (image : List Byte) :
    Memory.wf (Memory.place m addr image) := by
  induction image generalizing m addr with
  | nil => exact h
  | cons v rest ih => exact ih (Memory.write_wf h addr v) _

/-- The memory of a state that nothing has written is in the canonical form. -/
theorem Memory.wf_nil : Memory.wf [] := by simp [Memory.wf]

/-- A cell listed in a canonical memory is what its address reads. -/
theorem Memory.readNat_of_mem {m : Memory} (h : m.Pairwise (fun c d => c.1 < d.1)) {c : Host.Cell}
    (hc : c ∈ m) : Memory.readNat m c.1 = c.2 := by
  induction m with
  | nil => simp at hc
  | cons d m ih =>
    obtain ⟨hd, hm⟩ := List.pairwise_cons.mp h
    rcases List.mem_cons.mp hc with rfl | hc
    · simp [Memory.readNat_cons]
    · have := hd c hc
      rw [Memory.readNat_cons, if_neg (by omega)]
      exact ih hm hc

/-- An address that reads as something other than an unlisted cell is listed. -/
theorem Memory.mem_of_readNat {m : Memory} {a : Nat} (h : Memory.readNat m a ≠ Config.unlistedByte) :
    (a, Memory.readNat m a) ∈ m := by
  induction m with
  | nil => simp at h
  | cons d m ih =>
    rw [Memory.readNat_cons] at h ⊢
    split
    · rename_i hd; subst hd; simp
    · rename_i hd
      rw [if_neg hd] at h
      exact List.mem_cons_of_mem _ (ih h)

end Sys2Proof.Machine
end

