-- ==== Sys2Proof/Laws/PerInstr.lean ====
section
/-! SUPPORT. A statement for all instructions, one lemma per constructor: the length an opcode announces
is the length of the encoding. -/

namespace Sys2Proof.Laws.EncodedLength

/-- The encoding is as long as its opcode's operand count plus one (30_encoding.md R50, R56). -/
def Statement (i : Instr) : Prop := (encode i).length = (operandCount i.opcode).toNat + 1

/-- From the number of operand bytes and the opcode's operand count. -/
theorem of_bytes {i : Instr} (op : Byte) (n : Nat) (ho : i.opcode = op) (hn : i.operandBytes.length = n)
    (hc : (operandCount op).toNat = n) : Statement i := by
  simp [Statement, encode, ho, hn, hc]

theorem ldi (a imm : Byte) : Statement (.ldi a imm) := of_bytes 0x99 2 rfl rfl (by decide)
theorem add (a b : Byte) : Statement (.add a b) := of_bytes 0xA8 2 rfl rfl (by decide)
theorem sub (a b : Byte) : Statement (.sub a b) := of_bytes 0xA9 2 rfl rfl (by decide)
theorem mul (a b : Byte) : Statement (.mul a b) := of_bytes 0xAA 2 rfl rfl (by decide)
theorem div (a b : Byte) : Statement (.div a b) := of_bytes 0xAB 2 rfl rfl (by decide)
theorem cmp (a b : Byte) : Statement (.cmp a b) := of_bytes 0xA0 2 rfl rfl (by decide)
theorem inc (a : Byte) : Statement (.inc a) := of_bytes 0x78 1 rfl rfl (by decide)
theorem dec (a : Byte) : Statement (.dec a) := of_bytes 0x79 1 rfl rfl (by decide)
theorem push (a : Byte) : Statement (.push a) := of_bytes 0x4D 1 rfl rfl (by decide)
theorem pop (a : Byte) : Statement (.pop a) := of_bytes 0x4C 1 rfl rfl (by decide)
theorem prn (a : Byte) : Statement (.prn a) := of_bytes 0x43 1 rfl rfl (by decide)
theorem jmp (a : Byte) : Statement (.jmp a) := of_bytes 0x50 1 rfl rfl (by decide)
theorem jeq (a : Byte) : Statement (.jeq a) := of_bytes 0x51 1 rfl rfl (by decide)
theorem jne (a : Byte) : Statement (.jne a) := of_bytes 0x52 1 rfl rfl (by decide)
theorem hlt : Statement .hlt := of_bytes 0x01 0 rfl rfl (by decide)

end Sys2Proof.Laws.EncodedLength
end

