-- ==== Sys2Proof/Laws/State.lean ====
section
/-! SUPPORT. One lemma per field per update of State, so that no later proof unfolds a record update. -/

namespace Sys2Proof.Machine

@[simp] theorem State.setReg_regs (s : State) (i : Fin 8) (v : Byte) :
    (s.setReg i v).regs = s.regs.set i v := rfl
@[simp] theorem State.setReg_pc (s : State) (i : Fin 8) (v : Byte) : (s.setReg i v).pc = s.pc := rfl
@[simp] theorem State.setReg_ir (s : State) (i : Fin 8) (v : Byte) : (s.setReg i v).ir = s.ir := rfl
@[simp] theorem State.setReg_fl (s : State) (i : Fin 8) (v : Byte) : (s.setReg i v).fl = s.fl := rfl
@[simp] theorem State.setReg_run (s : State) (i : Fin 8) (v : Byte) :
    (s.setReg i v).run = s.run := rfl
@[simp] theorem State.setReg_cause (s : State) (i : Fin 8) (v : Byte) :
    (s.setReg i v).cause = s.cause := rfl
@[simp] theorem State.setReg_info (s : State) (i : Fin 8) (v : Byte) :
    (s.setReg i v).info = s.info := rfl
@[simp] theorem State.setReg_out (s : State) (i : Fin 8) (v : Byte) :
    (s.setReg i v).out = s.out := rfl
@[simp] theorem State.setReg_mem (s : State) (i : Fin 8) (v : Byte) :
    (s.setReg i v).mem = s.mem := rfl

@[simp] theorem State.setFl_regs (s : State) (v : Byte) : (s.setFl v).regs = s.regs := rfl
@[simp] theorem State.setFl_pc (s : State) (v : Byte) : (s.setFl v).pc = s.pc := rfl
@[simp] theorem State.setFl_ir (s : State) (v : Byte) : (s.setFl v).ir = s.ir := rfl
@[simp] theorem State.setFl_fl (s : State) (v : Byte) : (s.setFl v).fl = v := rfl
@[simp] theorem State.setFl_run (s : State) (v : Byte) : (s.setFl v).run = s.run := rfl
@[simp] theorem State.setFl_cause (s : State) (v : Byte) : (s.setFl v).cause = s.cause := rfl
@[simp] theorem State.setFl_info (s : State) (v : Byte) : (s.setFl v).info = s.info := rfl
@[simp] theorem State.setFl_out (s : State) (v : Byte) : (s.setFl v).out = s.out := rfl
@[simp] theorem State.setFl_mem (s : State) (v : Byte) : (s.setFl v).mem = s.mem := rfl

@[simp] theorem State.setPc_regs (s : State) (target : Byte) : (s.setPc target).regs = s.regs := rfl
@[simp] theorem State.setPc_pc (s : State) (target : Byte) : (s.setPc target).pc = target := rfl
@[simp] theorem State.setPc_ir (s : State) (target : Byte) : (s.setPc target).ir = s.ir := rfl
@[simp] theorem State.setPc_fl (s : State) (target : Byte) : (s.setPc target).fl = s.fl := rfl
@[simp] theorem State.setPc_run (s : State) (target : Byte) : (s.setPc target).run = s.run := rfl
@[simp] theorem State.setPc_cause (s : State) (target : Byte) :
    (s.setPc target).cause = s.cause := rfl
@[simp] theorem State.setPc_info (s : State) (target : Byte) : (s.setPc target).info = s.info := rfl
@[simp] theorem State.setPc_out (s : State) (target : Byte) : (s.setPc target).out = s.out := rfl
@[simp] theorem State.setPc_mem (s : State) (target : Byte) : (s.setPc target).mem = s.mem := rfl

@[simp] theorem State.memWrite_regs (s : State) (addr v : Byte) :
    (s.memWrite addr v).regs = s.regs := rfl
@[simp] theorem State.memWrite_pc (s : State) (addr v : Byte) : (s.memWrite addr v).pc = s.pc := rfl
@[simp] theorem State.memWrite_ir (s : State) (addr v : Byte) : (s.memWrite addr v).ir = s.ir := rfl
@[simp] theorem State.memWrite_fl (s : State) (addr v : Byte) : (s.memWrite addr v).fl = s.fl := rfl
@[simp] theorem State.memWrite_run (s : State) (addr v : Byte) :
    (s.memWrite addr v).run = s.run := rfl
@[simp] theorem State.memWrite_cause (s : State) (addr v : Byte) :
    (s.memWrite addr v).cause = s.cause := rfl
@[simp] theorem State.memWrite_info (s : State) (addr v : Byte) :
    (s.memWrite addr v).info = s.info := rfl
@[simp] theorem State.memWrite_out (s : State) (addr v : Byte) :
    (s.memWrite addr v).out = s.out := rfl
@[simp] theorem State.memWrite_mem (s : State) (addr v : Byte) :
    (s.memWrite addr v).mem = Memory.write s.mem addr v := rfl

@[simp] theorem State.output_regs (s : State) (v : Byte) : (s.output v).regs = s.regs := rfl
@[simp] theorem State.output_pc (s : State) (v : Byte) : (s.output v).pc = s.pc := rfl
@[simp] theorem State.output_ir (s : State) (v : Byte) : (s.output v).ir = s.ir := rfl
@[simp] theorem State.output_fl (s : State) (v : Byte) : (s.output v).fl = s.fl := rfl
@[simp] theorem State.output_run (s : State) (v : Byte) : (s.output v).run = s.run := rfl
@[simp] theorem State.output_cause (s : State) (v : Byte) : (s.output v).cause = s.cause := rfl
@[simp] theorem State.output_info (s : State) (v : Byte) : (s.output v).info = s.info := rfl
@[simp] theorem State.output_out (s : State) (v : Byte) : (s.output v).out = s.out ++ [v] := rfl
@[simp] theorem State.output_mem (s : State) (v : Byte) : (s.output v).mem = s.mem := rfl

@[simp] theorem fetchOpcode_regs (s : State) : (fetchOpcode s).regs = s.regs := rfl
@[simp] theorem fetchOpcode_pc (s : State) : (fetchOpcode s).pc = s.pc := rfl
@[simp] theorem fetchOpcode_ir (s : State) : (fetchOpcode s).ir = Memory.read s.mem s.pc := rfl
@[simp] theorem fetchOpcode_fl (s : State) : (fetchOpcode s).fl = s.fl := rfl
@[simp] theorem fetchOpcode_run (s : State) : (fetchOpcode s).run = s.run := rfl
@[simp] theorem fetchOpcode_cause (s : State) : (fetchOpcode s).cause = s.cause := rfl
@[simp] theorem fetchOpcode_info (s : State) : (fetchOpcode s).info = s.info := rfl
@[simp] theorem fetchOpcode_out (s : State) : (fetchOpcode s).out = s.out := rfl
@[simp] theorem fetchOpcode_mem (s : State) : (fetchOpcode s).mem = s.mem := rfl

@[simp] theorem advancePc_regs (s : State) : (advancePc s).regs = s.regs := rfl
@[simp] theorem advancePc_pc (s : State) : (advancePc s).pc = aluAdd s.pc (instrSize s.ir) := rfl
@[simp] theorem advancePc_ir (s : State) : (advancePc s).ir = s.ir := rfl
@[simp] theorem advancePc_fl (s : State) : (advancePc s).fl = s.fl := rfl
@[simp] theorem advancePc_run (s : State) : (advancePc s).run = s.run := rfl
@[simp] theorem advancePc_cause (s : State) : (advancePc s).cause = s.cause := rfl
@[simp] theorem advancePc_info (s : State) : (advancePc s).info = s.info := rfl
@[simp] theorem advancePc_out (s : State) : (advancePc s).out = s.out := rfl
@[simp] theorem advancePc_mem (s : State) : (advancePc s).mem = s.mem := rfl

@[simp] theorem raise_regs (f : FaultKind) (i : Byte) (s : State) :
    (raise f i s).regs = s.regs := rfl
@[simp] theorem raise_pc (f : FaultKind) (i : Byte) (s : State) : (raise f i s).pc = s.pc := rfl
@[simp] theorem raise_ir (f : FaultKind) (i : Byte) (s : State) : (raise f i s).ir = s.ir := rfl
@[simp] theorem raise_fl (f : FaultKind) (i : Byte) (s : State) : (raise f i s).fl = s.fl := rfl
@[simp] theorem raise_run (f : FaultKind) (i : Byte) (s : State) :
    (raise f i s).run = .halted := rfl
@[simp] theorem raise_cause (f : FaultKind) (i : Byte) (s : State) :
    (raise f i s).cause = f.code := rfl
@[simp] theorem raise_info (f : FaultKind) (i : Byte) (s : State) : (raise f i s).info = i := rfl
@[simp] theorem raise_out (f : FaultKind) (i : Byte) (s : State) : (raise f i s).out = s.out := rfl
@[simp] theorem raise_mem (f : FaultKind) (i : Byte) (s : State) : (raise f i s).mem = s.mem := rfl

@[simp] theorem haltClean_regs (s : State) : (haltClean s).regs = s.regs := rfl
@[simp] theorem haltClean_pc (s : State) : (haltClean s).pc = s.pc := rfl
@[simp] theorem haltClean_ir (s : State) : (haltClean s).ir = s.ir := rfl
@[simp] theorem haltClean_fl (s : State) : (haltClean s).fl = s.fl := rfl
@[simp] theorem haltClean_run (s : State) : (haltClean s).run = .halted := rfl
@[simp] theorem haltClean_cause (s : State) : (haltClean s).cause = 0 := rfl
@[simp] theorem haltClean_info (s : State) : (haltClean s).info = s.info := rfl
@[simp] theorem haltClean_out (s : State) : (haltClean s).out = s.out := rfl
@[simp] theorem haltClean_mem (s : State) : (haltClean s).mem = s.mem := rfl

@[simp] theorem applyReset_regs (s : State) : (applyReset s).regs = State.reset.regs := rfl
@[simp] theorem applyReset_pc (s : State) : (applyReset s).pc = 0 := rfl
@[simp] theorem applyReset_ir (s : State) : (applyReset s).ir = 0 := rfl
@[simp] theorem applyReset_fl (s : State) : (applyReset s).fl = 0 := rfl
@[simp] theorem applyReset_run (s : State) : (applyReset s).run = .running := rfl
@[simp] theorem applyReset_cause (s : State) : (applyReset s).cause = 0 := rfl
@[simp] theorem applyReset_info (s : State) : (applyReset s).info = 0 := rfl
@[simp] theorem applyReset_out (s : State) : (applyReset s).out = [] := rfl
@[simp] theorem applyReset_mem (s : State) : (applyReset s).mem = s.mem := rfl

@[simp] theorem pushReg_regs (i : Fin 8) (s : State) :
    (pushReg i s).regs = s.regs.set Config.spIndex (pushAddr s) := rfl
@[simp] theorem pushReg_pc (i : Fin 8) (s : State) : (pushReg i s).pc = s.pc := rfl
@[simp] theorem pushReg_ir (i : Fin 8) (s : State) : (pushReg i s).ir = s.ir := rfl
@[simp] theorem pushReg_fl (i : Fin 8) (s : State) : (pushReg i s).fl = s.fl := rfl
@[simp] theorem pushReg_run (i : Fin 8) (s : State) : (pushReg i s).run = s.run := rfl
@[simp] theorem pushReg_cause (i : Fin 8) (s : State) : (pushReg i s).cause = s.cause := rfl
@[simp] theorem pushReg_info (i : Fin 8) (s : State) : (pushReg i s).info = s.info := rfl
@[simp] theorem pushReg_out (i : Fin 8) (s : State) : (pushReg i s).out = s.out := rfl
@[simp] theorem pushReg_mem (i : Fin 8) (s : State) :
    (pushReg i s).mem = Memory.write s.mem (pushAddr s) (pushValue i s) := rfl

@[simp] theorem popReg_regs (i : Fin 8) (s : State) :
    (popReg i s).regs = (s.regs.set i (s.memRead (s.reg Config.spIndex))).set Config.spIndex (aluInc ((popLoad i s).reg Config.spIndex)) := rfl
@[simp] theorem popReg_pc (i : Fin 8) (s : State) : (popReg i s).pc = s.pc := rfl
@[simp] theorem popReg_ir (i : Fin 8) (s : State) : (popReg i s).ir = s.ir := rfl
@[simp] theorem popReg_fl (i : Fin 8) (s : State) : (popReg i s).fl = s.fl := rfl
@[simp] theorem popReg_run (i : Fin 8) (s : State) : (popReg i s).run = s.run := rfl
@[simp] theorem popReg_cause (i : Fin 8) (s : State) : (popReg i s).cause = s.cause := rfl
@[simp] theorem popReg_info (i : Fin 8) (s : State) : (popReg i s).info = s.info := rfl
@[simp] theorem popReg_out (i : Fin 8) (s : State) : (popReg i s).out = s.out := rfl
@[simp] theorem popReg_mem (i : Fin 8) (s : State) : (popReg i s).mem = s.mem := rfl

/-- Reading a register through its accessor. -/
@[simp] theorem State.reg_eq (s : State) (i : Fin 8) : s.reg i = s.regs[i] := rfl

/-- Reading a cell through its accessor. -/
@[simp] theorem State.memRead_eq (s : State) (addr : Byte) : s.memRead addr = Memory.read s.mem addr := rfl

/-- Two states are equal when all nine fields are. -/
theorem State.ext_fields {s t : State} (hregs : s.regs = t.regs) (hpc : s.pc = t.pc) (hir : s.ir = t.ir)
    (hfl : s.fl = t.fl) (hrun : s.run = t.run) (hcause : s.cause = t.cause) (hinfo : s.info = t.info)
    (hout : s.out = t.out) (hmem : s.mem = t.mem) : s = t := by
  cases s; cases t; simp_all

end Sys2Proof.Machine
end

