-- ==== Sys2Proof/Tests/Slice0.lean ====
section
/-! SUPPORT. Our own tests. Decoding tests write each word bit by bit from spec 30_encoding.md R55 and
opcode_table.json; step tests take their values from the vectors V<n> of spec 95_test_vectors.md, section 2;
witness theorems show, for each obligation with hypotheses, a case that meets them all. -/

namespace Sys2Proof.Tests

open Sys2Proof.Machine

/-! ## Helpers -/

/-- What `f` sees of the next state, if there is one. -/
def sees {α : Type} (o : Host.Outcome State Fault Refusal) (f : State → α) : Option α :=
  match o with
  | .next t => some (f t)
  | .fault _ => none
  | .refused _ => none

/-- The instruction the bytes at PC decode to. -/
def fetched (s : State) : Option Instr :=
  match decode (Memory.read s.mem s.pc) (Memory.read s.mem (s.pc + 1)) (Memory.read s.mem (s.pc + 2)) with
  | .ok i => some i
  | .error _ => none

/-- `fetched` is the decoder's acceptance. -/
theorem decode_of_fetched {s : State} {i : Instr} (h : fetched s = some i) :
    decode (Memory.read s.mem s.pc) (Memory.read s.mem (s.pc + 1)) (Memory.read s.mem (s.pc + 2)) = .ok i := by
  unfold fetched at h
  split at h
  · rename_i j hj
    cases h
    exact hj
  · cases h

/-- The reset state with PC, one byte in each of some registers, FL, and bytes in memory from PC on. -/
def start (pc : Byte) (regs : List (Fin 8 × Byte)) (fl : Byte) (code : List Byte) : State :=
  let s := regs.foldl (fun s r => s.setReg r.1 r.2) State.reset
  { s with pc := pc, fl := fl, mem := Memory.place [] pc code }

/-! ## Well-formedness: the check refuses an ill-formed term in every operand position -/

theorem test_wf_refuses_first_operand :
    ∀ i ∈ [Instr.ldi 8 0, .add 8 0, .sub 8 0, .mul 8 0, .div 8 0, .cmp 8 0, .inc 8, .dec 8, .push 8, .pop 8,
      .prn 8, .jmp 8, .jeq 8, .jne 255], ¬ i.WellFormed := by decide

theorem test_wf_refuses_second_operand :
    ∀ i ∈ [Instr.add 0 8, .sub 0 8, .mul 0 8, .div 0 8, .cmp 7 255], ¬ i.WellFormed := by decide

theorem test_wf_accepts :
    ∀ i ∈ [Instr.ldi 7 255, .add 7 7, .inc 7, .push 0, .jmp 7, .hlt], i.WellFormed := by decide

/-! ## Decoding: words written out from 30_encoding.md R55 -/

theorem test_decode_ldi : decode 0b10011001 0b00000011 0b11111111 = .ok (.ldi 3 255) := rfl
theorem test_decode_add : decode 0b10101000 0b00000000 0b00000001 = .ok (.add 0 1) := rfl
theorem test_decode_sub : decode 0b10101001 0b00000010 0b00000011 = .ok (.sub 2 3) := rfl
theorem test_decode_mul : decode 0b10101010 0b00000000 0b00000001 = .ok (.mul 0 1) := rfl
theorem test_decode_div : decode 0b10101011 0b00000000 0b11001000 = .ok (.div 0 200) := rfl
theorem test_decode_cmp : decode 0b10100000 0b00000101 0b00000101 = .ok (.cmp 5 5) := rfl
theorem test_decode_inc : decode 0b01111000 0b00000100 0b11111111 = .ok (.inc 4) := rfl
theorem test_decode_dec : decode 0b01111001 0b00000000 0b00000000 = .ok (.dec 0) := rfl
theorem test_decode_push : decode 0b01001101 0b00000010 0b00000000 = .ok (.push 2) := rfl
theorem test_decode_pop : decode 0b01001100 0b00000011 0b00000000 = .ok (.pop 3) := rfl
theorem test_decode_prn : decode 0b01000011 0b00000111 0b00000000 = .ok (.prn 7) := rfl
theorem test_decode_jmp : decode 0b01010000 0b00000010 0b00000000 = .ok (.jmp 2) := rfl
theorem test_decode_jeq : decode 0b01010001 0b00000011 0b00000000 = .ok (.jeq 3) := rfl
theorem test_decode_jne : decode 0b01010010 0b00000010 0b00000000 = .ok (.jne 2) := rfl
theorem test_decode_hlt : decode 0b00000001 0b11111111 0b11111111 = .ok .hlt := rfl

/-- The nearest invalid neighbours of 95_test_vectors.md section 2.7. -/
theorem test_decode_rejects_neighbours :
    ∀ op ∈ ([0x00, 0x02, 0x42, 0x44, 0x4B, 0x4E, 0x4F, 0x53, 0x77, 0x7A, 0x98, 0x9A, 0xA1, 0xA7, 0xAC, 0xC0, 0xFF] :
      List Byte), (match decode op 0 0 with | .ok _ => true | .error (.invalidOpcode b) => b != op) = false := by
  decide

/-- The table's numbering: bit 0 is the least significant bit of the first byte; bits above `nbits` are 0. -/
theorem test_decode_table_word :
    decodeTableWord 24 0x0201A8 = some (.add 1 2) ∧ decodeTableWord 8 0x99 = some (.ldi 0 0) ∧
    decodeTableWord 16 0xFF0378 = some (.inc 3) ∧ decodeTableWord 8 0x00 = none := by decide

/-- A placed word is what the first step after reset runs, also one shorter than its instruction. -/
theorem test_with_fetch_word :
    sees (step (State.reset.withFetchWord 24 0xFF0799)) (fun t => (t.regs[7], t.pc)) = some (0xFF, 3) ∧
    sees (step (State.reset.withFetchWord 8 0x4D)) (fun t => (t.regs[7], t.pc)) = some (0xF2, 2) := by decide

theorem test_encode_add : encode (.add 1 2) = [0xA8, 0x01, 0x02] := by decide

/-! ## One step of each instruction -/

theorem test_ldi_loads_sp_V4 :
    sees (step (start 0 [] 0 [0x99, 0x07, 0x80])) (fun t => (t.regs[7], t.pc, t.ir)) =
      some (0x80, 0x03, 0x99) := by decide

theorem test_ldi_wraps_address_space_V6 :
    sees (step (start 0xFE [] 0 [0x99, 0x04, 0x7B])) (fun t => (t.regs[4], t.pc)) = some (0x7B, 0x01) := by decide

theorem test_add_wraps_V8 :
    sees (step (start 0 [(0, 200), (1, 100)] 0 [0xA8, 0x00, 0x01])) (fun t => (t.regs[0], t.regs[1], t.fl)) =
      some (44, 100, 0) := by decide

theorem test_add_same_register_V10 :
    sees (step (start 0 [(2, 0x90)] 0 [0xA8, 0x02, 0x02])) (fun t => (t.regs[2], t.pc)) = some (0x20, 3) := by decide

theorem test_sub_wraps_V11 :
    sees (step (start 0 [(0, 5), (1, 10)] 0 [0xA9, 0x00, 0x01])) (fun t => (t.regs[0], t.regs[1], t.fl)) =
      some (0xFB, 10, 0) := by decide

theorem test_sub_V12 :
    sees (step (start 0 [(0, 0), (1, 255)] 0 [0xA9, 0x00, 0x01])) (fun t => (t.regs[0], t.pc)) =
      some (0x01, 3) := by decide

theorem test_mul_V14 :
    sees (step (start 0 [(0, 8), (1, 9)] 0 [0xAA, 0x00, 0x01])) (fun t => (t.regs[0], t.pc)) = some (72, 3) := by decide

theorem test_mul_wraps_V16 :
    sees (step (start 0 [(0, 255), (1, 255)] 0 [0xAA, 0x00, 0x01])) (fun t => t.regs[0]) = some 0x01 := by decide

theorem test_div_discards_remainder_V17 :
    sees (step (start 0 [(0, 100), (1, 7)] 0 [0xAB, 0x00, 0x01])) (fun t => (t.regs[0], t.pc)) =
      some (14, 3) := by decide

theorem test_div_by_zero_V20 :
    sees (step (start 0 [(0, 9)] 0 [0xAB, 0x00, 0x01])) (fun t => (t.run, t.cause, t.info, t.pc, t.regs[0])) =
      some (.halted, 2, 0xAB, 0, 9) := by decide

theorem test_cmp_is_unsigned_V23c :
    sees (step (start 0 [(0, 0x80), (1, 0x7F)] 0 [0xA0, 0x00, 0x01])) (fun t => (t.fl, t.regs[0], t.pc)) =
      some (0x02, 0x80, 3) := by decide

theorem test_cmp_clears_stale_flag_V23d :
    sees (step (start 0 [(0, 7), (1, 9)] 0x01 [0xA0, 0x00, 0x01])) (fun t => t.fl) = some 0x04 := by decide

theorem test_inc_across_wrap_V23k :
    sees (step (start 0xFF [(5, 9)] 0 [0x78, 0x05])) (fun t => (t.regs[5], t.pc)) = some (0x0A, 0x01) := by decide

theorem test_inc_wraps_V23f :
    sees (step (start 0 [(4, 0xFF)] 0 [0x78, 0x04])) (fun t => (t.regs[4], t.pc, t.fl)) = some (0, 2, 0) := by decide

theorem test_dec_wraps_V23h :
    sees (step (start 0 [] 0 [0x79, 0x00])) (fun t => (t.regs[0], t.pc)) = some (0xFF, 2) := by decide

theorem test_push_wraps_sp_V24 :
    sees (step (start 0 [(7, 0), (2, 0x77)] 0 [0x4D, 0x02])) (fun t => (t.regs[7], Memory.read t.mem 0xFF, t.pc)) =
      some (0xFF, 0x77, 2) := by decide

theorem test_push_of_sp_stores_new_sp_V28 :
    sees (step (start 0 [] 0 [0x4D, 0x07])) (fun t => (t.regs[7], Memory.read t.mem 0xF2)) =
      some (0xF2, 0xF2) := by decide

theorem test_pop_on_empty_stack_V27 :
    sees (step ((start 0 [] 0 [0x4C, 0x00]).memWrite 0xF3 0x5A)) (fun t => (t.regs[0], t.regs[7], t.pc)) =
      some (0x5A, 0xF4, 2) := by decide

theorem test_pop_into_sp_V29 :
    sees (step ((start 0 [] 0 [0x4C, 0x07]).memWrite 0xF3 0x40)) (fun t => (t.regs[7], t.pc)) =
      some (0x41, 2) := by decide

theorem test_prn_emits_raw_byte_V32 :
    sees (step (start 0 [(0, 0x0F)] 0 [0x43, 0x00])) (fun t => (t.out, t.pc)) = some ([0x0F], 2) := by decide

theorem test_prn_fault_emits_nothing_V32c :
    sees (step (start 0 [] 0 [0x43, 0xFF])) (fun t => (t.run, t.cause, t.info, t.pc, t.out)) =
      some (.halted, 3, 0x43, 0, []) := by decide

theorem test_jmp_V34 :
    sees (step (start 0x10 [(2, 0x09)] 0 [0x50, 0x02])) (fun t => t.pc) = some 0x09 := by decide

theorem test_jeq_taken_V35 :
    sees (step (start 0x0A [(3, 0x20)] 0x01 [0x51, 0x03])) (fun t => (t.pc, t.fl)) = some (0x20, 0x01) := by decide

theorem test_jeq_bad_register_not_taken_V38c :
    sees (step (start 0 [] 0 [0x51, 0x10])) (fun t => (t.run, t.cause, t.info, t.pc)) =
      some (.halted, 3, 0x51, 0) := by decide

theorem test_jne_taken_V37 :
    sees (step (start 0x10 [(2, 0x09)] 0x02 [0x52, 0x02])) (fun t => t.pc) = some 0x09 := by decide

theorem test_jne_not_taken_V38 :
    sees (step (start 0x10 [(2, 0x09)] 0x01 [0x52, 0x02])) (fun t => t.pc) = some 0x12 := by decide

theorem test_hlt_wraps_V39b :
    sees (step (start 0xFF [] 0 [0x01])) (fun t => (t.pc, t.run, t.cause, t.info)) =
      some (0, .halted, 0, 0) := by decide

theorem test_invalid_opcode_V42 :
    sees (step (start 0 [] 0 [0xA7, 0x00, 0x01])) (fun t => (t.ir, t.run, t.cause, t.info, t.pc)) =
      some (0xA7, .halted, 1, 0xA7, 0) := by decide

theorem test_bad_index_wins_over_zero_divisor_V22 :
    sees (step (start 0 [(0, 9)] 0 [0xAB, 0x00, 0xC8])) (fun t => (t.cause, t.info, t.pc)) =
      some (3, 0xAB, 0) := by decide

theorem test_push_own_bytes_V30 :
    sees (step (start 0 [(7, 2), (0, 0x33)] 0 [0x4D, 0x00]))
      (fun t => (t.regs[7], Memory.read t.mem 0x01, t.regs[0], t.pc)) = some (0x01, 0x33, 0x33, 2) := by decide

/-- The port's traffic: R81 for PUSH, R73 for an invalid opcode. -/
theorem test_port_traffic :
    stepAccesses (start 0 [(0, 0xAA)] 0 [0x4D, 0x00]) = [.read 0, .read 1, .read 2, .write 0xF2 0xAA] ∧
    stepAccesses (start 0 [] 0 [0xFF]) = [.read 0] := by decide

theorem test_write_of_unlisted_byte_is_removed :
    Memory.write (Memory.write [] 5 9) 5 Config.unlistedByte = [] := by decide

/-! ## Witnesses: each obligation's hypotheses, met together -/

/-- A Running state for each instruction, its bytes at PC, with no fault ahead. -/
def running (code : List Byte) : State := start 0xFE [(0, 9), (1, 3)] 0x01 code

/-- A Halted state. -/
def halted : State := haltClean State.reset

theorem witness_EncodedInstructionInMemoryRuns :
    (running [0xA8, 0, 1]).run = .running ∧ encode (.add 0 1) = [0xA8, 0, 1] ∧
    Memory.read (running [0xA8, 0, 1]).mem 0xFE = 0xA8 ∧ Memory.read (running [0xA8, 0, 1]).mem 0xFF = 0 ∧
    Memory.read (running [0xA8, 0, 1]).mem 0x00 = 1 := by decide

theorem witness_PlacedTableWordRunsNext : decodeTableWord 24 0x0100AB = some (.div 0 1) := by decide

theorem witness_StepRunsTheDecodedInstruction :
    (running [0xAB, 0, 1]).run = .running ∧ fetched (running [0xAB, 0, 1]) = some (.div 0 1) := by decide

theorem witness_EveryStepLoadsIrFromPc : State.reset.run = .running := by decide

theorem witness_HaltedIsFinal : halted.run = .halted := by decide

/-- A Halted core after a run, which `reset` makes Running. -/
theorem witness_OnlyResetLeavesHalted :
    ({ core := halted, started := true } : Session).core.run = .halted ∧
    ∃ e, drive .reset { core := halted, started := true } = some (.next e) ∧ e.core.run = .running :=
  ⟨rfl, _, rfl, rfl⟩

/-- Each clause: before the first step, during a run, Halted after one, and both sides of the image's limit. -/
theorem witness_DriverRequestsFollowTheContract :
    Session.powerUp.core.run = .running ∧ Session.powerUp.started = false ∧
    (∃ e, drive .step Session.powerUp = some (.next e) ∧ e.started = true ∧ e.core.run = .halted) ∧
    ({ core := running [0x01], started := true } : Session).core.run = .running ∧ halted.run = .halted ∧
    (List.replicate 256 (1 : Byte)).length ≤ 256 ∧ 256 < (List.replicate 257 (1 : Byte)).length :=
  ⟨rfl, rfl, ⟨_, rfl, rfl, rfl⟩, rfl, rfl, List.length_replicate.le,
    Nat.lt_of_lt_of_eq (by decide) List.length_replicate.symm⟩

theorem witness_NothingOutsideWritesMemoryDuringARun :
    inRun { core := running [0x4D, 0], started := true } = true ∧
    ∃ e, drive .step { core := running [0x4D, 0], started := true } = some (.next e) ∧
      Memory.read e.core.mem 0xF2 ≠ Memory.read (running [0x4D, 0]).mem 0xF2 := ⟨rfl, _, rfl, by decide⟩

/-- 40_step_cycle.md R86: no load during a run; one before it, and one after it (R184, log 17). -/
theorem test_load_only_outside_a_run :
    (drive (.load [0x01]) { core := State.reset, started := true }).isNone = true ∧
    (drive (.load [0x01]) Session.powerUp).isSome = true ∧
    (drive (.load [0x01]) { core := halted, started := true }).isSome = true := by decide

theorem witness_InvalidOpcodeHaltsAndChangesNothingElse :
    State.reset.run = .running ∧
      ∀ (a b : Byte) (i : Instr), decode (Memory.read State.reset.mem State.reset.pc) a b ≠ .ok i :=
  ⟨rfl, fun _ _ _ h => by cases h⟩

theorem witness_SequentialPcAddsOperandCountPlusOne : decode 0xA8 0 1 = .ok (.add 0 1) := rfl

/-- One Running state for each clause of `PcAfterEachInstruction`, the branches taken and not. -/
theorem witness_PcAfterEachInstruction :
    ∀ p ∈ ([([0x01], .hlt), ([0x78, 0], .inc 0), ([0x79, 0], .dec 0), ([0x4D, 0], .push 0), ([0x4C, 0], .pop 0),
        ([0x43, 0], .prn 0), ([0x50, 7], .jmp 7), ([0x51, 0], .jeq 0), ([0x52, 0], .jne 0)] ++
      [([0x99, 7, 255], .ldi 7 255), ([0xA8, 0, 1], .add 0 1), ([0xA9, 0, 1], .sub 0 1), ([0xAA, 0, 1], .mul 0 1),
        ([0xAB, 0, 1], .div 0 1), ([0xA0, 0, 1], .cmp 0 1)] : List (List Byte × Instr)),
      (running p.1).run = .running ∧ (running p.1).cause = 0 ∧ fetched (running p.1) = some p.2 ∧
      sees (step (running p.1)) (fun t => t.cause) = some 0 := by decide

/-- The clause of `PcAfterEachInstruction` for a step that faults. -/
theorem witness_PcAfterEachInstruction_fault :
    (running [0x78, 8]).run = .running ∧ (running [0x78, 8]).cause = 0 ∧
    fetched (running [0x78, 8]) = some (.inc 8) ∧ sees (step (running [0x78, 8])) (fun t => t.cause) = some 3 := by
  decide

theorem witness_CleanHaltExactlyByHlt :
    (running [0x01]).run = .running ∧ (running [0x01]).cause = 0 ∧
    ∃ t, step (running [0x01]) = .next t ∧ CleanHalt t := ⟨rfl, rfl, _, rfl, rfl, rfl⟩

/-- One Running state for each cause, and one for none. -/
theorem witness_FaultCauseExactlyByCondition :
    ∀ p ∈ ([([0x00], 1), ([0xAB, 0, 2], 2), ([0xAB, 0, 8], 3), ([0x4D, 255], 3), ([0x4D, 7], 0)] :
      List (List Byte × BitVec 2)),
      (running p.1).run = .running ∧ (running p.1).cause = 0 ∧
      sees (step (running p.1)) (fun t => t.cause) = some p.2 := by decide

theorem witness_FaultsArePrecise :
    (running [0xAB, 0, 2]).run = .running ∧ (running [0xAB, 0, 2]).cause = 0 ∧
    ∃ t, step (running [0xAB, 0, 2]) = .next t ∧ t.cause ≠ 0 :=
  ⟨rfl, rfl, _, rfl, by decide⟩

theorem witness_BadRegisterOperandTakesRegIndexFault :
    (∃ r ∈ (Instr.add 0 8).regOperands, 7 < r.toNat) ∧ ∃ r ∈ (Instr.jne 255).regOperands, 7 < r.toNat := by decide

theorem witness_DivByZeroTakesDivisionByZero :
    (0#8).toNat = (0 : Fin 8).val ∧ (2#8).toNat = (2 : Fin 8).val ∧ State.reset.regs[(2 : Fin 8)] = 0 := by decide

theorem witness_WellFormedInstructionsCompleteWithoutFault :
    (Instr.push 7).WellFormed ∧ ¬ DividesByZero (.push 7) State.reset :=
  ⟨by decide, by rintro ⟨_, _, _, h, -⟩; cases h⟩

/-- A state that meets the invariant, with a step from it. -/
theorem witness_StepKeepsTheInvariant :
    Inv (running [0xA0, 0, 1]) ∧ ∃ t, step (running [0xA0, 0, 1]) = .next t ∧ t.fl = 0x02 :=
  ⟨⟨by decide, .inr (.inl rfl), by unfold FaultRecordLegal; decide⟩, _, rfl, by decide⟩

theorem witness_ResetAndLoadKeepTheInvariant :
    Inv State.reset ∧ ∃ t, loadImage [0x01] State.reset = some t :=
  ⟨⟨by decide, .inl rfl, by unfold FaultRecordLegal; decide⟩, _, rfl⟩

theorem witness_FirstInstructionIsFetchedFromAddressZero :
    ∃ l, loadImage [0x01, 0x02] (applyReset halted) = some l := ⟨_, rfl⟩

theorem witness_LoaderPlacesTheImageFromAddressZero :
    (List.replicate 256 (1 : Byte)).length ≤ 256 ∧ 256 < (List.replicate 257 (1 : Byte)).length :=
  ⟨List.length_replicate.le, Nat.lt_of_lt_of_eq (by decide) List.length_replicate.symm⟩

theorem witness_ErrorOutputExactlyOnErrorHalt :
    Inv (raise .invalidOpcode 0 State.reset) ∧ errorOut (raise .invalidOpcode 0 State.reset) = true :=
  ⟨⟨by decide, .inl rfl, by unfold FaultRecordLegal; decide⟩, rfl⟩

theorem witness_MemoryReadsWhatWasLastWritten : (0xFF : Byte) ≠ 0x00 := by decide

theorem witness_CanonicalMemoryIsDeterminedByItsContents :
    Memory.wf (Memory.write (Memory.write [] 0xFF 1) 0x00 2) ∧
    Memory.write (Memory.write [] 0xFF 1) 0x00 2 = Memory.write (Memory.write [] 0x00 2) 0xFF 1 := by decide

/-- Each clause: PUSH and POP of registers 0 and 7, of byte 8, and an instruction that is neither. -/
theorem witness_StepAccessesAreTheFetchesAndAtMostOneMore :
    ∀ p ∈ ([([0x4D, 0], .push 0), ([0x4D, 7], .push 7), ([0x4D, 8], .push 8), ([0x4C, 0], .pop 0),
        ([0x4C, 7], .pop 7), ([0x4C, 8], .pop 8), ([0x43, 0], .prn 0)] : List (List Byte × Instr)),
      (running p.1).run = .running ∧ fetched (running p.1) = some p.2 ∧
      sees (step (running p.1)) (fun _ => true) = some true := by decide

/-- PUSH R0 at 0x00 with SP = 3 stores at 0x02, where PC goes next. -/
theorem witness_PushedByteIsFetchedByTheNextStep :
    (0#8).toNat = (0 : Fin 8).val ∧ ({ start 0 [(7, 3), (0, 1)] 0 [] with ir := 0x4D } : State).run = .running ∧
    ∃ t, exec (.push 0) { start 0 [(7, 3), (0, 1)] 0 [] with ir := 0x4D } = .next t ∧
      t.pc = pushAddr { start 0 [(7, 3), (0, 1)] 0 [] with ir := 0x4D } :=
  ⟨rfl, rfl, _, rfl, by decide⟩

/-- The hypotheses of the result statements of one register operand (LDI, INC, DEC, PRN, the branches) at
both ends of the range. -/
theorem witness_one_register_operand :
    (0#8).toNat = (0 : Fin 8).val ∧ (7#8).toNat = (7 : Fin 8).val := by decide

/-- The hypotheses of the result statements of two register operands (ADD, SUB, MUL, CMP). -/
theorem witness_two_register_operands :
    (0#8).toNat = (0 : Fin 8).val ∧ (7#8).toNat = (7 : Fin 8).val ∧ (7 : Fin 8) ≠ 0 := by decide

theorem witness_DivWritesTheQuotient :
    (0#8).toNat = (0 : Fin 8).val ∧ (7#8).toNat = (7 : Fin 8).val ∧ State.reset.regs[(7 : Fin 8)] ≠ 0 := by decide

theorem witness_PushDecrementsSpThenStores : (6#8).toNat = (6 : Fin 8).val ∧ (6 : Fin 8) ≠ 7 := by decide

theorem witness_PopLoadsThenIncrementsSp : (0#8).toNat = (0 : Fin 8).val ∧ (0 : Fin 8) ≠ 7 := by decide

/-- Both clauses of the branch statements. -/
theorem witness_TakenBranchSetsPcToTheRegister :
    (7#8).toNat = (7 : Fin 8).val ∧ (running []).fl.getLsbD 0 = true ∧ State.reset.fl.getLsbD 0 = false := by decide

theorem witness_JeqAndJneAreOpposite :
    (0#8).toNat = (0 : Fin 8).val ∧ (running []).fl.getLsbD 0 = true ∧ State.reset.fl.getLsbD 0 = false := by decide

/-- A register writer that completes, one that takes RegIndexFault and a DIV by 0. -/
theorem witness_RegisterWritersFrame :
    (∃ t, exec (.add 7 0) State.reset = .next t ∧ t.run = .running) ∧
    (∃ t, exec (.ldi 8 0) State.reset = .next t ∧ t.cause = 3) ∧
    (∃ t, exec (.div 7 0) State.reset = .next t ∧ t.cause = 2) :=
  ⟨⟨_, rfl, by decide⟩, ⟨_, rfl, by decide⟩, ⟨_, rfl, by decide⟩⟩

theorem witness_CmpFrame : ∃ t, exec (.cmp 0 7) State.reset = .next t ∧ t.fl = 0x04 := ⟨_, rfl, by decide⟩

theorem witness_PushFrame :
    ∃ t, exec (.push 7) State.reset = .next t ∧ pushAddr State.reset = 0xF2 ∧ Memory.read t.mem 0xF2 = 0xF2 :=
  ⟨_, rfl, by decide, by decide⟩

theorem witness_PopFrame : ∃ t, exec (.pop 0) State.reset = .next t ∧ t.regs[7] = 0xF4 := ⟨_, rfl, by decide⟩

theorem witness_OutputBranchAndHaltFrame :
    (∃ t, exec (.prn 7) State.reset = .next t ∧ t.out = [0xF3]) ∧
    (∃ t, exec .hlt State.reset = .next t ∧ t.run = .halted) ∧
    (∃ t, exec (.jmp 8) State.reset = .next t ∧ t.cause = 3) :=
  ⟨⟨_, rfl, by decide⟩, ⟨_, rfl, by decide⟩, ⟨_, rfl, by decide⟩⟩

theorem witness_OnlyCmpChangesFlags :
    (running [0xA0, 0, 1]).run = .running ∧
    ∃ t, step (running [0xA0, 0, 1]) = .next t ∧ t.fl ≠ (running [0xA0, 0, 1]).fl := ⟨rfl, _, rfl, by decide⟩

theorem witness_OnlyPushChangesMemory :
    (running [0x4D, 0]).run = .running ∧ ∃ t, step (running [0x4D, 0]) = .next t ∧
      Memory.read t.mem 0xF2 ≠ Memory.read (running [0x4D, 0]).mem 0xF2 := ⟨rfl, _, rfl, by decide⟩

theorem witness_OutputIsAppendedByPrnAndNeverRead :
    (7#8).toNat = (7 : Fin 8).val ∧ (∃ t, exec (.push 7) State.reset = .next t) ∧
    (∀ a, Instr.push 7 ≠ .prn a) ∧ ∃ t, step (running [0x43, 7]) = .next t ∧ t.out = [0xF3] :=
  ⟨rfl, ⟨_, rfl⟩, fun _ => Instr.noConfusion, _, rfl, by decide⟩

/-- Two states that differ in all a program cannot observe. -/
theorem witness_UnobservableStateNeverMatters :
    SameToProgram (running [0xA0, 0, 1]) { running [0xA0, 0, 1] with fl := 0xFF, ir := 1, cause := 1, info := 2, out := [3] } ∧
    ∃ t, Host.Core.run Sys2Proof.core 1 (running [0xA0, 0, 1]) = .next t :=
  ⟨⟨rfl, by decide, rfl, rfl, rfl⟩, _, rfl⟩

theorem witness_PushThenPopRestores :
    (0#8).toNat = (0 : Fin 8).val ∧ (6#8).toNat = (6 : Fin 8).val ∧ (0 : Fin 8) ≠ 7 ∧ (6 : Fin 8) ≠ 7 := by decide

/-- 256 operands of which the first is register 0, all between register 7, and the last register 6. -/
def pushes : List Byte := 0 :: (List.replicate 254 7 ++ [6])

/-- Each clause, at SP 0x00 and 0xFF, on registers 0, 6 and 7, and a list of 256 PUSHes that holds all three. -/
theorem witness_StackPointerWrapsAndFillsMemory :
    (0#8).toNat = (0 : Fin 8).val ∧ (6#8).toNat = (6 : Fin 8).val ∧ (7#8).toNat = (7 : Fin 8).val ∧
    (start 0 [(7, 0)] 0 []).regs[7] = 0x00 ∧ (start 0 [(7, 255)] 0 []).regs[7] = 0xFF ∧
    pushes.length = 256 ∧ (∀ r ∈ pushes, r.toNat ≤ 7) ∧
    pushes[0]? = some 0 ∧ pushes[1]? = some 7 ∧ pushes[255]? = some 6 := by
  refine ⟨rfl, rfl, rfl, by decide, by decide, ?_, ?_, rfl, rfl, ?_⟩
  · simp only [pushes, List.length_cons, List.length_append, List.length_replicate, List.length_nil]
  · intro r h
    simp only [pushes, List.mem_cons, List.mem_append, List.mem_replicate, List.not_mem_nil, or_false] at h
    rcases h with rfl | ⟨-, rfl⟩ | rfl <;> decide
  · simp only [pushes, List.getElem?_cons_succ, List.getElem?_append_right, List.length_replicate, le_refl,
      Nat.sub_self, List.getElem?_cons_zero]

end Sys2Proof.Tests
end

section
/-! SUPPORT. The converse of `exec_cases`: a handler case is what `exec` runs, so a result of `exec`
is proved by naming its case. -/

namespace Sys2Proof.Machine

/-- Equal handler outcomes complete to the same answer: `exec` on an operand form, from what the form answers. -/
theorem next_complete_congr {s : State} {r r' : HandlerOutcome} (h : r = r') :
    (.next (complete s r) : Host.Outcome State Fault Refusal) = .next (complete s r') := by rw [h]

/-- An instruction with a register operand byte above 7 takes RegIndexFault. -/
theorem exec_of_badReg {ins : Instr} {s : State} (h : ∃ r ∈ ins.regOperands, 7 < r.toNat) :
    exec ins s = .next (complete s (.fault .regIndexFault)) := by
  cases ins with
  | ldi a _ | inc a | dec a | push a | pop a | prn a | jmp a | jeq a | jne a =>
    have ha : 7 < a.toNat := by simpa [Instr.regOperands] using h
    exact next_complete_congr (withReg_of_gt ha _)
  | add a b | sub a b | mul a b | div a b | cmp a b =>
    have hab : 7 < a.toNat ∨ 7 < b.toNat := by simpa [Instr.regOperands] using h
    exact next_complete_congr (withRegPair_of_gt hab _)
  | hlt => simp [Instr.regOperands] at h

/-- `exec` answers the completion of every handler case of its instruction. -/
theorem exec_of_handlerCase {ins : Instr} {s : State} {r : HandlerOutcome} (h : HandlerCase s ins r) :
    exec ins s = .next (complete s r) := by
  cases h with
  | ldi hi | inc hi | dec hi | push hi | pop hi | prn hi | jmp hi =>
    exact next_complete_congr (withReg_of_toNat hi _)
  | add hi hj | sub hi hj | mul hi hj | cmp hi hj =>
    exact next_complete_congr (withRegPair_of_toNat hi hj _)
  | div hi hj hq | divZero hi hj hq =>
    refine next_complete_congr ((withRegPair_of_toNat hi hj _).trans ?_)
    simp only [alu, State.reg_eq, hq, aluToState]
  | jeqTaken hi he | jeqNot hi he | jneTaken hi he | jneNot hi he =>
    refine next_complete_congr ((withReg_of_toNat hi _).trans ?_)
    simp [he]
  | hlt => rfl
  | badReg hbad => exact exec_of_badReg hbad

end Sys2Proof.Machine
end

section
/-! SUPPORT. The output sequence: PRN alone appends to it, and a step commutes with putting earlier
output before it, so no instruction reads it (10_state.md R19). -/

namespace Sys2Proof.Machine

/-- `s` with the bytes `before` emitted earlier. -/
def State.withEarlierOut (before : List Byte) (s : State) : State := { s with out := before ++ s.out }

/-- The handler outcome with the bytes `before` emitted earlier; a fault carries no state. -/
def HandlerOutcome.withEarlierOut (before : List Byte) : HandlerOutcome → HandlerOutcome
  | .next s => .next (s.withEarlierOut before)
  | .jump target s => .jump target (s.withEarlierOut before)
  | .halt s => .halt (s.withEarlierOut before)
  | .fault f => .fault f

/-- Emitting a byte after earlier output. -/
theorem State.output_withEarlierOut (before : List Byte) (s : State) (v : Byte) :
    (s.withEarlierOut before).output v = (s.output v).withEarlierOut before := by
  simp [State.output, State.withEarlierOut]

/-- Earlier output selects the same handler case: every case but PRN's reads only fields that it leaves, and
PRN's appends at the other end. -/
theorem HandlerCase.withEarlierOut {s : State} {ins : Instr} {r : HandlerOutcome} (before : List Byte)
    (h : HandlerCase s ins r) : HandlerCase (s.withEarlierOut before) ins (r.withEarlierOut before) := by
  cases h with
  | prn hi =>
    rw [HandlerOutcome.withEarlierOut, ← State.output_withEarlierOut]
    exact .prn hi
  | _ => constructor <;> assumption

/-- Completing a handler outcome commutes with earlier output. -/
theorem complete_withEarlierOut (before : List Byte) (s : State) (r : HandlerOutcome) :
    complete (s.withEarlierOut before) (r.withEarlierOut before) = (complete s r).withEarlierOut before := by
  cases r <;> rfl

/-- A step commutes with earlier output, in each of the three things a step can do. -/
theorem step_withEarlierOut {s t : State} (before : List Byte) (h : step s = .next t) :
    step (s.withEarlierOut before) = .next (t.withEarlierOut before) := by
  rcases step_cases s with ⟨hrun, hstep⟩ | ⟨e, hrun, hd, hstep⟩ | ⟨i, r, hrun, hd, hcase, hstep⟩
  · cases hstep.symm.trans h
    exact step_of_halted hrun
  · cases hstep.symm.trans h
    exact step_of_error (s := s.withEarlierOut before) hrun hd
  · cases hstep.symm.trans h
    calc step (s.withEarlierOut before)
        = exec i ((fetchOpcode s).withEarlierOut before) := step_of_ok (s := s.withEarlierOut before) hrun hd
      _ = .next (complete _ (r.withEarlierOut before)) := exec_of_handlerCase (hcase.withEarlierOut before)
      _ = .next ((complete (fetchOpcode s) r).withEarlierOut before) := by rw [complete_withEarlierOut]

/-- Every handler case but PRN's leaves `out` as it was. -/
theorem HandlerCase.complete_out {s : State} {ins : Instr} {r : HandlerOutcome} (h : HandlerCase s ins r)
    (hprn : ∀ a, ins ≠ .prn a) : (complete s r).out = s.out := by
  cases h with
  | prn _ => exact absurd rfl (hprn _)
  | _ => simp

/-- No instruction but PRN changes `out`. -/
theorem exec_out_of_ne_prn {ins : Instr} {s t : State} (h : exec ins s = .next t)
    (hprn : ∀ a, ins ≠ .prn a) : t.out = s.out := by
  obtain ⟨r, hcase, hexec⟩ := exec_cases ins s
  cases hexec.symm.trans h
  exact hcase.complete_out hprn

/-- Settles O56: PRN's handler case appends the register's byte, no other case touches `out`, and a step
commutes with earlier output. -/
theorem outputIsAppendedByPrnAndNeverRead : Obligations.OutputIsAppendedByPrnAndNeverRead := by
  refine ⟨rfl, fun s a i hi => ?_, fun i s t h hprn => exec_out_of_ne_prn h hprn,
    fun s t before h => step_withEarlierOut before h⟩
  exact ⟨_, exec_of_handlerCase (.prn hi), by simp⟩

end Sys2Proof.Machine
end

section
/-! SUPPORT. Reading a cell after a write, at the written address and away from it (20_memory.md R32). -/

namespace Sys2Proof.Machine

/-- The written cell holds the written byte, the unlisted one included. -/
theorem Memory.read_write_same (m : Memory) (addr v : Byte) :
    Memory.read (Memory.write m addr v) addr = v := by
  rw [Memory.read_write, if_pos rfl]

/-- A write leaves every other cell. -/
theorem Memory.read_write_of_ne (m : Memory) {addr other : Byte} (v : Byte) (h : other ≠ addr) :
    Memory.read (Memory.write m addr v) other = Memory.read m other := by
  rw [Memory.read_write, if_neg h.symm]

/-- Settles O30: the written address and any other address are the two branches of `Memory.read_write`. -/
theorem memoryReadsWhatWasLastWritten : Obligations.MemoryReadsWhatWasLastWritten :=
  fun m addr v => ⟨Memory.read_write_same m addr v, fun _ hne => Memory.read_write_of_ne m v hne⟩

end Sys2Proof.Machine
end

section
/-! SUPPORT. The bytes of an instruction: bits 7 to 6 of its opcode count its operand bytes, the decoder
reads it back from them, and from consecutive addresses a step runs it (30_encoding.md R50, R56, R57). -/

namespace Sys2Proof

/-- Bits 7 to 6 of an opcode byte are the number of operand bytes. -/
theorem opcode_ushiftRight_six (i : Instr) : i.opcode >>> 6 = BitVec.ofNat 8 i.operandBytes.length := by
  cases i <;> simp [Instr.opcode, Instr.operandBytes]

theorem operandBytes_length_le_two (i : Instr) : i.operandBytes.length ≤ 2 := by
  cases i <;> simp [Instr.operandBytes]

theorem encode_length (i : Instr) : (encode i).length = (i.opcode >>> 6).toNat + 1 := by
  have hle := operandBytes_length_le_two i
  rw [opcode_ushiftRight_six, BitVec.toNat_ofNat, Nat.mod_eq_of_lt (by omega)]
  rfl

/-- An opcode byte with two bytes that begin with the operand bytes decodes to the instruction. -/
theorem decode_of_operandBytes_prefix {i : Instr} {x y : Byte} (h : i.operandBytes <+: [x, y]) :
    decode i.opcode x y = .ok i := by
  cases i with
  | ldi a b | add a b | sub a b | mul a b | div a b | cmp a b =>
    obtain ⟨rfl, rfl⟩ : a = x ∧ b = y := by simpa [Instr.operandBytes] using h
    rfl
  | inc a | dec a | push a | pop a | prn a | jmp a | jeq a | jne a =>
    obtain rfl : a = x := by simpa [Instr.operandBytes] using h
    rfl
  | hlt => rfl

namespace Machine

/-- The bytes of `i` lie at consecutive addresses modulo 256 from `addr`. -/
def Memory.HoldsAt (m : Memory) (addr : Byte) (i : Instr) : Prop :=
  ∀ k v, (encode i)[k]? = some v → Memory.read m (addr + BitVec.ofNat 8 k) = v

theorem Memory.HoldsAt.read_opcode {m : Memory} {addr : Byte} {i : Instr} (h : m.HoldsAt addr i) :
    Memory.read m addr = i.opcode := by
  simpa using h 0 i.opcode rfl

theorem Memory.HoldsAt.operandBytes_prefix {m : Memory} {addr : Byte} {i : Instr} (h : m.HoldsAt addr i) :
    i.operandBytes <+: [Memory.read m (addr + 1), Memory.read m (addr + 2)] := by
  have hle := operandBytes_length_le_two i
  refine List.prefix_iff_getElem?.mpr fun k hk => ?_
  have hread := h (k + 1) i.operandBytes[k] (List.getElem?_eq_getElem hk)
  obtain rfl | rfl : k = 0 ∨ k = 1 := by omega
  all_goals exact congrArg some hread

/-- A step runs the instruction whose bytes lie from PC, with its opcode in IR. -/
theorem step_of_holdsAt {s : State} {i : Instr} (hrun : s.run = .running) (h : s.mem.HoldsAt s.pc i) :
    step s = exec i { s with ir := i.opcode } := by
  have hdecode : decode (Memory.read s.mem s.pc) (Memory.read s.mem (s.pc + 1)) (Memory.read s.mem (s.pc + 2)) =
      .ok i := by
    rw [h.read_opcode]
    exact decode_of_operandBytes_prefix h.operandBytes_prefix
  rw [step_of_ok hrun hdecode, fetchOpcode_eq, h.read_opcode]

/-- Settles O4: the opcode counts the operand bytes, at most two, and the bytes a step fetches begin with
the encoding, so the decoder answers the instruction. -/
theorem encodedInstructionInMemoryRuns : Obligations.EncodedInstructionInMemoryRuns := by
  intro i
  exact ⟨encode_length i, Nat.succ_pos _, Nat.succ_le_succ (operandBytes_length_le_two i), rfl,
    fun s hrun hbytes => step_of_holdsAt hrun hbytes⟩

/-- Settles O5: the 15 bytes of the table are compared, and each instruction's operand bytes are counted by
its opcode. -/
theorem opcodeMapIsDistinctAndGivesArity : Obligations.OpcodeMapIsDistinctAndGivesArity := by
  refine ⟨rfl, by decide, fun a b i hi => ?_, fun a i hi => ?_, opcode_ushiftRight_six .hlt, rfl⟩
  · have hops : i.operandBytes = [a, b] := by
      simp only [List.mem_cons, List.not_mem_nil, or_false] at hi
      rcases hi with rfl | rfl | rfl | rfl | rfl | rfl <;> rfl
    exact ⟨by rw [opcode_ushiftRight_six, hops]; rfl, hops⟩
  · have hops : i.operandBytes = [a] := by
      simp only [List.mem_cons, List.not_mem_nil, or_false] at hi
      rcases hi with rfl | rfl | rfl | rfl | rfl | rfl | rfl | rfl <;> rfl
    exact ⟨by rw [opcode_ushiftRight_six, hops]; rfl, hops⟩

end Machine

end Sys2Proof
end

section
/-! SUPPORT. The step cycle's phases 1 and 5: every step leaves IR as phase 1 loaded it (40_step_cycle.md
R71), and PC is written from IR's operand count or by a branch's target (R77, R78). -/

namespace Sys2Proof.Machine

/-- No handler writes IR, and neither does phase 5 or a fault. -/
theorem HandlerCase.complete_ir {s : State} {ins : Instr} {r : HandlerOutcome} (h : HandlerCase s ins r) :
    (complete s r).ir = s.ir := by
  cases h <;> simp

/-- Settles O8: phase 1 is `fetchOpcode_eq`, and IR stays as loaded in both things a Running step can do,
InvalidOpcode or a handler case. -/
theorem everyStepLoadsIrFromPc : Obligations.EveryStepLoadsIrFromPc := by
  refine ⟨fetchOpcode_eq, fun s hrunning => ?_⟩
  rcases step_cases s with ⟨hhalted, -⟩ | ⟨e, -, -, hstep⟩ | ⟨i, r, -, -, hcase, hstep⟩
  · cases hhalted.symm.trans hrunning
  · exact ⟨_, hstep, rfl⟩
  · exact ⟨_, hstep, hcase.complete_ir⟩

/-- Bits 7 to 6 are the quotient by 64, and the size does not wrap. -/
theorem instrSize_toNat (ir : Byte) : (instrSize ir).toNat = ir.toNat / 64 + 1 := by
  have hlt := ir.isLt
  rw [instrSize_eq, BitVec.toNat_add, BitVec.toNat_ushiftRight, Nat.shiftRight_eq_div_pow]
  change (ir.toNat / 64 + 1) % 256 = ir.toNat / 64 + 1
  omega

/-- No instruction's opcode has operand count 3. -/
theorem opcode_toNat_div_le_two (i : Instr) : i.opcode.toNat / 64 ≤ 2 := by
  have hsize := encode_length i
  have hle := operandBytes_length_le_two i
  rw [BitVec.toNat_ushiftRight, Nat.shiftRight_eq_div_pow] at hsize
  simp only [encode, List.length_cons] at hsize
  omega

/-- Settles O12: ALU ADD of PC and the instruction size is their sum modulo 256, and an accepted opcode
byte is its instruction's opcode. -/
theorem sequentialPcAddsOperandCountPlusOne : Obligations.SequentialPcAddsOperandCountPlusOne := by
  refine ⟨fun s => ?_, fun op a b i hdecode => ?_⟩
  · have hpc : aluAdd s.pc (instrSize s.ir) =
        BitVec.ofNat 8 ((s.pc.toNat + s.ir.toNat / 64 + 1) % 256) := by
      rw [aluAdd, instrSize_toNat, ← Nat.add_assoc]
      exact BitVec.eq_of_toNat_eq (by simp)
    exact congrArg s.setPc hpc
  · rw [decode_opcode hdecode]
    exact opcode_toNat_div_le_two i

/-- Settles O46: each of the three is the branch's jump case, completed by writing the target to PC. -/
theorem takenBranchSetsPcToTheRegister : Obligations.TakenBranchSetsPcToTheRegister :=
  fun _ _ _ hi => ⟨exec_of_handlerCase (.jmp hi), fun he => exec_of_handlerCase (.jeqTaken hi he),
    fun he => exec_of_handlerCase (.jneTaken hi he)⟩

end Sys2Proof.Machine
end

section
/-! SUPPORT. ALU results as the spec's arithmetic reduced modulo 256, and the whole state after an
instruction that writes one register and goes on (42_alu.md R101 to R106; 40_step_cycle.md R78). -/

namespace Sys2Proof.Machine

theorem aluAdd_eq_mod (x y : Byte) : aluAdd x y = BitVec.ofNat 8 ((x.toNat + y.toNat) % 256) :=
  BitVec.eq_of_toNat_eq (by simp [aluAdd])

theorem aluSub_eq_emod (x y : Byte) :
    aluSub x y = BitVec.ofInt 8 (((x.toNat : Int) - (y.toNat : Int)) % 256) :=
  BitVec.eq_of_toInt_eq <| by
    simp only [aluSub, BitVec.toInt_ofInt]
    exact (Int.emod_bmod _ 256).symm

theorem aluMul_eq_mod (x y : Byte) : aluMul x y = BitVec.ofNat 8 (x.toNat * y.toNat % 256) :=
  BitVec.eq_of_toNat_eq (by simp [aluMul])

theorem aluInc_eq_mod (x : Byte) : aluInc x = BitVec.ofNat 8 ((x.toNat + 1) % 256) :=
  aluAdd_eq_mod x 1

/-- Modulo 256, subtracting 1 is adding 255. -/
theorem aluDec_eq_mod (x : Byte) : aluDec x = BitVec.ofNat 8 ((x.toNat + 255) % 256) := by
  have hadd : aluDec x = aluAdd x 255 := by
    rw [aluDec_eq, aluAdd_eq, BitVec.sub_eq_add_neg]
    rfl
  rw [hadd]
  exact aluAdd_eq_mod x 255

/-- Phase 5 after a register write. -/
theorem advancePc_setReg (s : State) (i : Fin 8) (v : Byte) :
    advancePc (s.setReg i v) = { s with regs := s.regs.set i v, pc := s.pc + ((s.ir >>> 6) + 1) } := by
  rw [advancePc, aluAdd_eq, instrSize_eq]
  rfl

/-- An instruction whose handler writes `x[i]`: the register and PC change, and nothing else. -/
theorem exec_of_setReg_case {ins : Instr} {s : State} {i : Fin 8} {v w : Byte}
    (h : HandlerCase s ins (.next (s.setReg i v))) (hv : v = w) :
    exec ins s = .next { s with regs := s.regs.set i w, pc := s.pc + ((s.ir >>> 6) + 1) } := by
  rw [exec_of_handlerCase h, complete_next, advancePc_setReg, hv]

/-- Settles O35: ADD's handler case writes the ALU's sum. -/
theorem addWritesTheSumModulo256 : Obligations.AddWritesTheSumModulo256 :=
  fun _ _ _ _ _ hi hj => exec_of_setReg_case (.add hi hj) (aluAdd_eq_mod _ _)

/-- Settles O36: SUB's handler case writes the ALU's difference. -/
theorem subWritesTheDifferenceModulo256 : Obligations.SubWritesTheDifferenceModulo256 :=
  fun _ _ _ _ _ hi hj => exec_of_setReg_case (.sub hi hj) (aluSub_eq_emod _ _)

/-- Settles O37: MUL's handler case writes the ALU's product. -/
theorem mulWritesTheLowByteOfTheProduct : Obligations.MulWritesTheLowByteOfTheProduct :=
  fun _ _ _ _ _ hi hj => exec_of_setReg_case (.mul hi hj) (aluMul_eq_mod _ _)

/-- Settles O40: INC's handler case writes the ALU's increment. -/
theorem incAddsOneModulo256 : Obligations.IncAddsOneModulo256 :=
  fun _ _ _ hi => exec_of_setReg_case (.inc hi) (aluInc_eq_mod _)

/-- Settles O41: DEC's handler case writes the ALU's decrement. -/
theorem decSubtractsOneModulo256 : Obligations.DecSubtractsOneModulo256 :=
  fun _ _ _ hi => exec_of_setReg_case (.dec hi) (aluDec_eq_mod _)

end Sys2Proof.Machine
end

section
/-! SUPPORT. A branch that falls through, and so JEQ and JNE on either value of Equal (45_branch.md R140,
R144). -/

namespace Sys2Proof.Machine

/-- An instruction whose handler goes on with the state as it was: PC advances by the instruction size, and
nothing else changes. -/
theorem exec_of_next_case {ins : Instr} {s : State} (h : HandlerCase s ins (.next s)) :
    exec ins s = .next { s with pc := s.pc + ((s.ir >>> 6) + 1) } := by
  rw [exec_of_handlerCase h, complete_next, advancePc, aluAdd_eq, instrSize_eq]
  rfl

/-- Settles O47: Equal set selects JEQ's jump case and JNE's fall-through case, and Equal clear the reverse. -/
theorem jeqAndJneAreOpposite : Obligations.JeqAndJneAreOpposite := by
  intro s a i hi
  obtain ⟨-, hjeq, hjne⟩ := takenBranchSetsPcToTheRegister s a i hi
  exact ⟨fun he => ⟨hjeq he, exec_of_next_case (.jneNot hi he)⟩,
    fun he => ⟨exec_of_next_case (.jeqNot hi he), hjne he⟩⟩

end Sys2Proof.Machine
end

section
/-! SUPPORT. The loader's first cell: placing an image leaves every cell past its end, so the cell it begins
at holds its first byte, from which the first step after reset loads IR (70_reset_and_hazards.md R182). -/

namespace Sys2Proof.Machine

/-- What the loader does to the state when it accepts an image. -/
theorem loadImage_eq_some {image : List Byte} {s t : State} :
    loadImage image s = some t ↔
      image.length ≤ Config.memSize ∧ { s with mem := Memory.place [] Config.loadOrigin image } = t := by
  rw [loadImage, Option.ite_none_right_eq_some, Option.some_inj]

/-- Counted from `addr` modulo 256, a cell at or past the image's end is left as it was. -/
theorem Memory.read_place_of_length_le (m : Memory) {addr a : Byte} {image : List Byte}
    (h : image.length ≤ (a - addr).toNat) : Memory.read (Memory.place m addr image) a = Memory.read m a := by
  induction image generalizing m addr with
  | nil => rfl
  | cons v rest ih =>
    rw [List.length_cons] at h
    have hne : a ≠ addr := by bv_omega
    have hrest : rest.length ≤ (a - (addr + 1)).toNat := by bv_omega
    rw [Memory.place, aluAdd_eq, ih _ hrest, Memory.read_write_of_ne m v hne]

/-- An image of at most 256 bytes does not wrap onto its own first cell. -/
theorem Memory.read_place_head (m : Memory) (addr v : Byte) {rest : List Byte}
    (h : (v :: rest).length ≤ Config.memSize) : Memory.read (Memory.place m addr (v :: rest)) addr = v := by
  have hrest : rest.length ≤ (addr - (addr + 1)).toNat := by
    rw [List.length_cons, Config.memSize] at h
    bv_omega
  rw [Memory.place, aluAdd_eq, Memory.read_place_of_length_le _ hrest, Memory.read_write_same]

/-- Settles O24: after reset the core is Running with PC 0, and stays so over a load, so its step loads IR from
address 0, where the loader put the image's first byte. -/
theorem firstInstructionIsFetchedFromAddressZero : Obligations.FirstInstructionIsFetchedFromAddressZero := by
  obtain ⟨-, hfetch⟩ := everyStepLoadsIrFromPc
  refine fun s => ⟨applyReset_run s, applyReset_pc s, hfetch (applyReset s) (applyReset_run s),
    fun v rest l hload => ?_⟩
  obtain ⟨hlen, rfl⟩ := loadImage_eq_some.mp hload
  obtain ⟨t, hstep, hir⟩ :=
    hfetch { applyReset s with mem := Memory.place [] Config.loadOrigin (v :: rest) } (applyReset_run s)
  exact ⟨t, hstep, hir.trans (Memory.read_place_head [] Config.loadOrigin v hlen)⟩

end Sys2Proof.Machine
end

section
/-! SUPPORT. The decoder and the encoder agree in both directions, and the decoder refuses by name exactly the
bytes that no row of the dispatch table has (30_encoding.md R55, R57, R58). -/

namespace Sys2Proof

/-- The decoder takes the operand bytes from the bytes after the opcode, in order. -/
theorem operandBytes_prefix_of_decode {op x y : Byte} {i : Instr} (h : decode op x y = .ok i) :
    i.operandBytes <+: [x, y] := by
  obtain rfl := decode_opcode h
  cases i <;> cases h <;> simp [Instr.operandBytes]

theorem decode_eq_ok_iff {op x y : Byte} {i : Instr} :
    decode op x y = .ok i ↔ op = i.opcode ∧ i.operandBytes <+: [x, y] := by
  refine ⟨fun h => ⟨decode_opcode h, operandBytes_prefix_of_decode h⟩, ?_⟩
  rintro ⟨rfl, hops⟩
  exact decode_of_operandBytes_prefix hops

/-- Settles O2: both sides say that the opcode is the instruction's and that the bytes after it begin with its
operand bytes. -/
theorem decodeAndEncodeAgree : Obligations.DecodeAndEncodeAgree := by
  intro op x y i
  calc decode op x y = .ok i ↔ op = i.opcode ∧ i.operandBytes <+: [x, y] := decode_eq_ok_iff
    _ ↔ encode i <+: [op, x, y] := by rw [encode, List.cons_prefix_cons, eq_comm]
    _ ↔ ∃ rest, [op, x, y] = encode i ++ rest := exists_congr fun _ => eq_comm

theorem decode_eq_error_iff {op x y : Byte} :
    decode op x y = .error (.invalidOpcode op) ↔ op ∉ dispatchTable.map Prod.fst := by
  unfold decode
  split
  · rename_i row hrow
    have hop : row.1 = op := by simpa using List.find?_some hrow
    simp [← hop, List.mem_map_of_mem (List.mem_of_find?_eq_some hrow)]
  · rename_i hnone
    simp only [true_iff, List.mem_map, not_exists, not_and]
    intro row hmem hop
    simpa [hop] using List.find?_eq_none.mp hnone row hmem

/-- The bytes of the dispatch table, in rising order. -/
theorem dispatchTable_bytes_perm : (dispatchTable.map Prod.fst).Perm
    [0x01, 0x43, 0x4C, 0x4D, 0x50, 0x51, 0x52, 0x78, 0x79, 0x99, 0xA0, 0xA8, 0xA9, 0xAA, 0xAB] := by decide

/-- Settles O3: the listed bytes are those of the dispatch table in another order. -/
theorem otherBytesAreInvalidOpcodes : Obligations.OtherBytesAreInvalidOpcodes :=
  fun _ _ _ => decode_eq_error_iff.trans dispatchTable_bytes_perm.mem_iff.not

/-- Settles O1: the decoder's look-up of each of the 15 bytes computes, whatever the operand bytes. -/
theorem opcodeBytesDecodeToTheirInstructions : Obligations.OpcodeBytesDecodeToTheirInstructions := by
  intro a b
  and_intros <;> rfl

end Sys2Proof
end

section
/-! SUPPORT. The step answers in every state, what memory it accesses in each of its branches, and runs that
begin Halted (40_step_cycle.md R73, R79, R82). -/

namespace Sys2Proof.Machine

theorem exec_answers (i : Instr) (s : State) : ∃ t, exec i s = .next t := by
  obtain ⟨r, -, hexec⟩ := exec_cases i s
  exact ⟨_, hexec⟩

theorem step_answers (s : State) : ∃ t, step s = .next t := by
  rcases step_cases s with ⟨-, hstep⟩ | ⟨e, -, -, hstep⟩ | ⟨i, r, -, -, -, hstep⟩ <;> exact ⟨_, hstep⟩

/-- Settles O9: everything `exec` and `step` can do is a next state. -/
theorem everyStepAnswersANextState : Obligations.EveryStepAnswersANextState :=
  ⟨exec_answers, step_answers⟩

/-- Settles O7: the accepted branch of the step, with phase 1 written out. -/
theorem stepRunsTheDecodedInstruction : Obligations.StepRunsTheDecodedInstruction :=
  fun _ _ hrun hdecode => step_of_ok hrun hdecode

theorem stepAccesses_of_halted {s : State} (hrun : s.run = .halted) : stepAccesses s = [] := by
  simp only [stepAccesses, hrun]

theorem stepAccesses_of_error {s : State} (hrun : s.run = .running) {e : DecodeReject}
    (hdecode : decode (Memory.read s.mem s.pc) (Memory.read s.mem (s.pc + 1)) (Memory.read s.mem (s.pc + 2)) =
      .error e) :
    stepAccesses s = [.read s.pc] := by
  simp only [stepAccesses, hrun, decode_fetched, hdecode]

theorem stepAccesses_of_ok {s : State} (hrun : s.run = .running) {i : Instr}
    (hdecode : decode (Memory.read s.mem s.pc) (Memory.read s.mem (s.pc + 1)) (Memory.read s.mem (s.pc + 2)) =
      .ok i) :
    stepAccesses s =
      [.read s.pc, .read (s.pc + 1), .read (s.pc + 2)] ++ handlerAccesses i (fetchOpcode s) := by
  simp only [stepAccesses, hrun, decode_fetched, hdecode, aluAdd_eq]

theorem run_of_halted {s : State} (hrun : s.run = .halted) (n : Nat) :
    Host.Core.run Sys2Proof.core n s = .next s := by
  induction n with
  | zero => exact run_zero s
  | succ n ih => rw [run_succ_of_next (step_of_halted hrun), ih]

/-- Settles O10, by induction on the number of steps. -/
theorem haltedIsFinal : Obligations.HaltedIsFinal :=
  fun _ hrun => ⟨stepAccesses_of_halted hrun, run_of_halted hrun⟩

/-- Settles O11: the opcode has no handler with any operand bytes, so none with the fetched ones. -/
theorem invalidOpcodeHaltsAndChangesNothingElse : Obligations.InvalidOpcodeHaltsAndChangesNothingElse := by
  intro s hrun hno
  cases hdecode : decode (Memory.read s.mem s.pc) (Memory.read s.mem (s.pc + 1))
      (Memory.read s.mem (s.pc + 2)) with
  | ok i => exact absurd hdecode (hno _ _ i)
  | error e => exact ⟨step_of_error hrun hdecode, stepAccesses_of_error hrun hdecode⟩

end Sys2Proof.Machine
end

section
/-! SUPPORT. Faults: when an instruction takes one and when it completes, so how a step ends, in the order of
priority of 60_exceptions.md section 3, and where PC stands then (40_step_cycle.md section 3). -/

namespace Sys2Proof.Machine

/-- Settles O17: the operand check comes before the handler. -/
theorem badRegisterOperandTakesRegIndexFault : Obligations.BadRegisterOperandTakesRegIndexFault :=
  fun _ _ hbad => exec_of_badReg hbad

/-- Settles O18: the ALU has no quotient by 0, which is DIV's fault case. -/
theorem divByZeroTakesDivisionByZero : Obligations.DivByZeroTakesDivisionByZero :=
  fun _ _ _ _ _ hi hj hzero => exec_of_handlerCase (.divZero hi hj (aluDiv_eq_none.mpr hzero))

theorem exec_of_dividesByZero {i : Instr} {s : State} (hwf : i.WellFormed) (hdiv : DividesByZero i s) :
    exec i s = .next (raise .divisionByZero s.ir s) := by
  obtain ⟨a, b, j, rfl, hj, hzero⟩ := hdiv
  have ha : a.toNat ≤ 7 := hwf a (by simp [Instr.regOperands])
  exact divByZeroTakesDivisionByZero s a b ⟨a.toNat, by omega⟩ j rfl hj hzero

/-- With register operands that name registers and no division by 0, the handler case is no fault. -/
theorem HandlerCase.completes {i : Instr} {s : State} {r : HandlerOutcome} (h : HandlerCase s i r)
    (hwf : i.WellFormed) (hdiv : ¬ DividesByZero i s) :
    (complete s r).info = s.info ∧ (i = .hlt → (complete s r).run = .halted ∧ (complete s r).cause = 0) ∧
      (i ≠ .hlt → (complete s r).run = s.run ∧ (complete s r).cause = s.cause) := by
  cases h with
  | badReg hbad =>
    obtain ⟨x, hmem, hgt⟩ := hbad
    exact absurd (hwf x hmem) (by omega)
  | divZero _ hj hq => exact absurd ⟨_, _, _, rfl, hj, aluDiv_eq_none.mp hq⟩ hdiv
  | _ => simp

/-- Settles O19: the two fault cases contradict the premises, and of the others only HLT's halts. -/
theorem wellFormedInstructionsCompleteWithoutFault : Obligations.WellFormedInstructionsCompleteWithoutFault := by
  intro i s hwf hdiv
  obtain ⟨r, hcase, hexec⟩ := exec_cases i s
  exact ⟨_, hexec, hcase.completes hwf hdiv⟩

/-- How a step of a Running machine without a cause ends, by what the decoder answers: the opcode, then the
register operands, then the divisor (60_exceptions.md section 3). -/
inductive StepEnd (s : State) : Except DecodeReject Instr → State → Prop where
  | invalidOpcode (e : DecodeReject) :
      StepEnd s (.error e) (raise .invalidOpcode (Memory.read s.mem s.pc) (fetchOpcode s))
  | regIndexFault {i : Instr} (hbad : ∃ r ∈ i.regOperands, 7 < r.toNat) :
      StepEnd s (.ok i) (raise .regIndexFault (Memory.read s.mem s.pc) (fetchOpcode s))
  | divisionByZero {i : Instr} (hwf : i.WellFormed) (hdiv : DividesByZero i s) :
      StepEnd s (.ok i) (raise .divisionByZero (Memory.read s.mem s.pc) (fetchOpcode s))
  | completed {i : Instr} {t : State} (hwf : i.WellFormed) (hdiv : ¬ DividesByZero i s) (hinfo : t.info = s.info)
      (hcause : t.cause = 0) (hhalted : t.run = .halted ↔ i = .hlt) : StepEnd s (.ok i) t

theorem stepEnd_of_step {s t : State} (hrun : s.run = .running) (hcause : s.cause = 0)
    (hstep : step s = .next t) :
    StepEnd s (decode (Memory.read s.mem s.pc) (Memory.read s.mem (s.pc + 1)) (Memory.read s.mem (s.pc + 2)))
      t := by
  cases hdecode : decode (Memory.read s.mem s.pc) (Memory.read s.mem (s.pc + 1))
      (Memory.read s.mem (s.pc + 2)) with
  | error e =>
    cases (step_of_error hrun hdecode).symm.trans hstep
    exact .invalidOpcode e
  | ok i =>
    have hexec : exec i (fetchOpcode s) = .next t := (step_of_ok hrun hdecode).symm.trans hstep
    by_cases hwf : i.WellFormed
    · by_cases hdiv : DividesByZero i s
      · cases (exec_of_dividesByZero (s := fetchOpcode s) hwf hdiv).symm.trans hexec
        exact .divisionByZero hwf hdiv
      · obtain ⟨u, hu, hinfo, hhlt, hne⟩ :=
          wellFormedInstructionsCompleteWithoutFault i (fetchOpcode s) hwf hdiv
        cases hu.symm.trans hexec
        by_cases hi : i = .hlt
        · obtain ⟨hhalted, hzero⟩ := hhlt hi
          exact .completed hwf hdiv hinfo hzero (iff_of_true hhalted hi)
        · obtain ⟨hsame, hzero⟩ := hne hi
          exact .completed hwf hdiv hinfo (hzero.trans hcause) (by simp [hsame, hrun, hi])
    · have hbad : ∃ r ∈ i.regOperands, 7 < r.toNat := by simpa using hwf
      cases (exec_of_badReg hbad).symm.trans hexec
      exact .regIndexFault hbad

/-- Settles O14: a fault leaves a cause, and of the completed instructions only HLT halts. -/
theorem cleanHaltExactlyByHlt : Obligations.CleanHaltExactlyByHlt := by
  intro s t hrun hcause hstep
  have hend := stepEnd_of_step hrun hcause hstep
  generalize decode _ _ _ = d at hend ⊢
  cases hend with
  | invalidOpcode e => simp [CleanHalt, FaultKind.code]
  | @regIndexFault i hbad =>
    have hne : i ≠ .hlt := by
      rintro rfl
      simp [Instr.regOperands] at hbad
    simp [CleanHalt, FaultKind.code, hne]
  | divisionByZero hwf hdiv =>
    obtain ⟨a, b, j, rfl, -⟩ := hdiv
    simp [CleanHalt, FaultKind.code]
  | completed hwf hdiv hinfo hzero hhalted => simp [CleanHalt, hzero, hhalted]

/-- Settles O15: the four ends of a step exclude each other and have the causes 1, 3, 2 and 0. -/
theorem faultCauseExactlyByCondition : Obligations.FaultCauseExactlyByCondition := by
  intro s t hrun hcause hstep
  have hend := stepEnd_of_step hrun hcause hstep
  generalize decode _ _ _ = d at hend ⊢
  cases hend with
  | invalidOpcode e => simp [FaultKind.code]
  | @regIndexFault i hbad =>
    have hwf : ¬ ∀ r ∈ i.regOperands, r.toNat ≤ 7 := by simpa using hbad
    simp [FaultKind.code, hbad, hwf]
  | @divisionByZero i hwf hdiv =>
    have hbad : ¬ ∃ r ∈ i.regOperands, 7 < r.toNat := by simpa using hwf
    simpa [FaultKind.code, hbad, hdiv] using hwf
  | @completed i _ hwf hdiv hinfo hzero hhalted =>
    have hbad : ¬ ∃ r ∈ i.regOperands, 7 < r.toNat := by simpa using hwf
    simp [hzero, hbad, hdiv]

theorem StepEnd.eq_of_cause_ne {s t : State} {d : Except DecodeReject Instr} (h : StepEnd s d t)
    (hfault : t.cause ≠ 0) :
    t = { s with ir := Memory.read s.mem s.pc, run := .halted, cause := t.cause,
                 info := Memory.read s.mem s.pc } := by
  cases h with
  | completed _ _ _ hzero _ => exact absurd hzero hfault
  | _ => rfl

/-- Settles O16: each of the three faults is raised in the state that phase 1 leaves. -/
theorem faultsArePrecise : Obligations.FaultsArePrecise :=
  fun _ _ hrun hcause hstep hfault => (stepEnd_of_step hrun hcause hstep).eq_of_cause_ne hfault

/-- The size that phase 5 adds to PC counts the opcode and its operand bytes. -/
theorem instrSize_opcode (i : Instr) : instrSize i.opcode = BitVec.ofNat 8 (i.operandBytes.length + 1) := by
  rw [instrSize_eq, opcode_ushiftRight_six, BitVec.ofNat_add]
  rfl

/-- Settles O13: a fault keeps PC; a jump case writes its target, and every other case adds the instruction's
size. -/
theorem pcAfterEachInstruction : Obligations.PcAfterEachInstruction := by
  intro s t i hrun hcause hdecode hstep
  refine ⟨fun hfault => ?_, fun hzero => ?_⟩
  · rw [faultsArePrecise s t hrun hcause hstep hfault]
  obtain ⟨r, hcase, hexec⟩ := exec_cases i (fetchOpcode s)
  cases hexec.symm.trans ((step_of_ok hrun hdecode).symm.trans hstep)
  have hnext : aluAdd s.pc (instrSize (Memory.read s.mem s.pc)) =
      s.pc + BitVec.ofNat 8 (i.operandBytes.length + 1) := by
    rw [decode_opcode hdecode, instrSize_opcode, aluAdd_eq]
  cases hcase with
  | jmp hi => exact ⟨_, hi, rfl⟩
  | jeqTaken hi he => exact (if_pos he).mpr ⟨_, hi, rfl⟩
  | jeqNot hi he => exact (if_neg (ne_true_of_eq_false he)).mpr hnext
  | jneTaken hi he => exact (if_neg (ne_true_of_eq_false he)).mpr ⟨_, hi, rfl⟩
  | jneNot hi he => exact (if_pos he).mpr hnext
  | divZero _ _ _ | badReg _ => simp [FaultKind.code] at hzero
  | _ => exact hnext

end Sys2Proof.Machine
end

section
/-! SUPPORT. The invariant part by part (canonical memory, legal FL, legal fault record): every step, reset and
load keep it, the status outputs follow from it, and canonical memories are equal when their contents are
(10_state.md R17, R18; 20_memory.md R30). -/

namespace Sys2Proof.Machine

/-- Only PUSH writes memory, by `MemWrite`, which keeps the form. -/
theorem HandlerCase.complete_mem_wf {s : State} {i : Instr} {r : HandlerOutcome} (h : HandlerCase s i r)
    (hwf : Memory.wf s.mem) : Memory.wf (complete s r).mem := by
  cases h with
  | push _ => exact Memory.write_wf hwf _ _
  | _ => exact hwf

/-- Legal flags have bits 7 to 3 clear, and a compare sets exactly one of E, G, L. -/
theorem flagsLegal_writeEgl {fl : Byte} (h : FlagsLegal fl) (x y : Byte) :
    FlagsLegal (writeEgl fl (compareEgl x y)) := by
  have hclear : fl &&& 0xF8 = 0 := by rcases h with rfl | rfl | rfl | rfl <;> rfl
  rw [writeEgl_compare, hclear]
  split_ifs <;> simp [FlagsLegal]

theorem HandlerCase.complete_flagsLegal {s : State} {i : Instr} {r : HandlerOutcome} (h : HandlerCase s i r)
    (hfl : FlagsLegal s.fl) : FlagsLegal (complete s r).fl := by
  cases h with
  | cmp _ _ => exact flagsLegal_writeEgl hfl _ _
  | _ => exact hfl

theorem StepEnd.faultRecordLegal {s t : State} {d : Except DecodeReject Instr} (h : StepEnd s d t)
    (hinfo : s.info = 0) : FaultRecordLegal t := by
  cases h with
  | completed _ _ hsame hzero _ => simp [FaultRecordLegal, hzero, hsame, hinfo]
  | _ => simp [FaultRecordLegal, FaultKind.code]

/-- Settles O21: memory and FL are kept by every handler case, and the fault record by each way a step ends. -/
theorem stepKeepsTheInvariant : Obligations.StepKeepsTheInvariant := by
  rintro s t ⟨hmem, hfl, hrecord⟩ hstep
  have hlegal (hrun : s.run = .running) : FaultRecordLegal t := by
    obtain ⟨hcause, hinfo, -⟩ := hrecord
    exact (stepEnd_of_step hrun (hcause hrun) hstep).faultRecordLegal (hinfo (hcause hrun))
  rcases step_cases s with ⟨-, h⟩ | ⟨e, hrun, -, h⟩ | ⟨i, r, hrun, -, hcase, h⟩ <;> cases h.symm.trans hstep
  · exact ⟨hmem, hfl, hrecord⟩
  · exact ⟨hmem, hfl, hlegal hrun⟩
  · exact ⟨hcase.complete_mem_wf hmem, hcase.complete_flagsLegal hfl, hlegal hrun⟩

theorem inv_applyReset {s : State} (hmem : Memory.wf s.mem) : Inv (applyReset s) :=
  ⟨hmem, .inl rfl, by simp [FaultRecordLegal]⟩

/-- Settles O20: `State.reset` is a reset with a memory that nothing has written. -/
theorem resetMeetsTheInvariant : Obligations.ResetMeetsTheInvariant :=
  inv_applyReset (s := State.reset) Memory.wf_nil

/-- Settles O22: reset leaves memory, and the loader builds it by writes and leaves everything else. -/
theorem resetAndLoadKeepTheInvariant : Obligations.ResetAndLoadKeepTheInvariant := by
  rintro s ⟨hmem, hfl, hrecord⟩
  refine ⟨inv_applyReset hmem, fun image t hload => ?_⟩
  obtain ⟨-, rfl⟩ := loadImage_eq_some.mp hload
  exact ⟨Memory.place_wf Memory.wf_nil _ _, hfl, hrecord⟩

/-- Settles O23: the reset values are `State.reset`'s, and a memory that lists no cell reads as 0. -/
theorem resetSetsEveryRegister : Obligations.ResetSetsEveryRegister :=
  ⟨fun _ => rfl, rfl, fun addr => Memory.readNat_nil addr.toNat⟩

/-- Settles O29: a legal fault record has a cause only while Halted, and then `info` is IR. -/
theorem errorOutputExactlyOnErrorHalt : Obligations.ErrorOutputExactlyOnErrorHalt := by
  rintro s ⟨-, -, hnone, -, hinfo⟩
  have herror : errorOut s = true ↔ s.cause ≠ 0 := decide_eq_true_iff
  have hhalted : haltedOut s = true ↔ s.run = .halted := decide_eq_true_iff
  have hcause (h : s.cause ≠ 0) : s.run = .halted := by
    cases hrun : s.run with
    | halted => rfl
    | running => exact absurd (hnone hrun) h
  rw [herror, hhalted]
  exact ⟨⟨fun h => ⟨hcause h, h⟩, fun ⟨_, h⟩ => h⟩, Iff.rfl, fun h => ⟨hcause h, hinfo h⟩⟩

/-- The cells a canonical memory lists are the ones that read as something an unlisted cell does not. -/
theorem Memory.mem_iff_of_wf {m : Memory} (h : Memory.wf m) {c : Host.Cell} :
    c ∈ m ↔ c.1 < Config.memSize ∧ c.2 ≠ Config.unlistedByte ∧ Memory.readNat m c.1 = c.2 := by
  obtain ⟨hrise, hcells⟩ := h
  constructor
  · intro hc
    obtain ⟨hlt, hne⟩ := hcells c hc
    exact ⟨hlt, hne, Memory.readNat_of_mem hrise hc⟩
  · rintro ⟨-, hne, hread⟩
    have hc := Memory.mem_of_readNat (hread.trans_ne hne)
    rwa [hread] at hc

theorem Memory.readNat_eq_read (m : Memory) {a : Nat} (h : a < Config.memSize) :
    Memory.readNat m a = Memory.read m (BitVec.ofNat 8 a) := by
  rw [Memory.read, BitVec.toNat_ofNat, Nat.mod_eq_of_lt (show a < 2 ^ 8 from h)]

theorem Memory.nodup_of_wf {m : Memory} (h : Memory.wf m) : m.Nodup :=
  h.1.imp fun hlt => ne_of_apply_ne Prod.fst hlt.ne

/-- Equal contents list the same cells, and rising addresses put them in the same order. -/
theorem Memory.eq_of_wf {m n : Memory} (hm : Memory.wf m) (hn : Memory.wf n)
    (h : ∀ addr, Memory.read m addr = Memory.read n addr) : m = n := by
  have hmem (c : Host.Cell) : c ∈ m ↔ c ∈ n := by
    rw [Memory.mem_iff_of_wf hm, Memory.mem_iff_of_wf hn]
    refine and_congr_right fun hlt => ?_
    rw [Memory.readNat_eq_read m hlt, Memory.readNat_eq_read n hlt, h]
  have hperm : m.Perm n :=
    (List.perm_ext_iff_of_nodup (Memory.nodup_of_wf hm) (Memory.nodup_of_wf hn)).mpr hmem
  exact hperm.eq_of_pairwise (fun _ _ _ _ hcd hdc => absurd hcd hdc.not_gt) hm.1 hn.1

/-- Settles O31: `MemWrite` keeps the form, and the form determines the list. -/
theorem canonicalMemoryIsDeterminedByItsContents : Obligations.CanonicalMemoryIsDeterminedByItsContents :=
  ⟨fun _ addr v h => Memory.write_wf h addr v, fun _ _ => Memory.eq_of_wf⟩

end Sys2Proof.Machine
end

section
/-! SUPPORT. Whole next states: LDI, DIV, CMP, PRN, HLT, and PUSH and POP with the operand that is SP itself
(41_load_immediate.md; 42_alu.md; 43_stack.md; 44_output.md; 46_halt.md). -/

namespace Sys2Proof.Machine

theorem advancePc_eq (s : State) : advancePc s = { s with pc := s.pc + ((s.ir >>> 6) + 1) } := by
  rw [advancePc, aluAdd_eq, instrSize_eq]
  rfl

/-- An instruction whose handler goes on with state `t`: phase 5 then moves PC. -/
theorem exec_of_next {ins : Instr} {s t : State} (h : HandlerCase s ins (.next t)) :
    exec ins s = .next { t with pc := t.pc + ((t.ir >>> 6) + 1) } := by
  rw [exec_of_handlerCase h, complete_next, advancePc_eq]

/-- Settles O34: LDI's handler case writes the immediate. -/
theorem ldiLoadsTheImmediate : Obligations.LdiLoadsTheImmediate :=
  fun _ _ _ _ hi => exec_of_setReg_case (.ldi hi) rfl

/-- Settles O38: DIV's handler case writes the quotient of natural numbers, which needs no reduction modulo
256. -/
theorem divWritesTheQuotient : Obligations.DivWritesTheQuotient := by
  intro s a b i j hi hj hne
  have hpos : 0 < s.regs[j].toNat := Nat.pos_of_ne_zero fun h => hne (BitVec.eq_of_toNat_eq h)
  have hq : (BitVec.ofNat 8 (s.regs[i].toNat / s.regs[j].toNat)).toNat = s.regs[i].toNat / s.regs[j].toNat := by
    rw [BitVec.toNat_ofNat, Nat.mod_eq_of_lt ((Nat.div_le_self _ _).trans_lt s.regs[i].isLt)]
  refine ⟨_, ?_, ?_, exec_of_setReg_case (.div hi hj (aluDiv_of_ne hne)) rfl⟩
  · rw [hq]
    exact Nat.div_mul_le_self _ _
  · rw [hq, Nat.succ_mul]
    exact Nat.lt_div_mul_add hpos

theorem writeEgl_getLsbD (fl : Byte) (egl : BitVec 3) {k : Nat} (hk : k < 3) :
    (writeEgl fl egl).getLsbD k = egl.getLsbD k := by
  interval_cases k <;> simp [writeEgl]

theorem writeEgl_ushiftRight (fl : Byte) (egl : BitVec 3) : writeEgl fl egl >>> 3 = fl >>> 3 := by
  ext k hk
  interval_cases k <;> simp [writeEgl]

/-- The bits of `{l, g, e}`. -/
theorem getLsbD_ofBool_append : ∀ l g e : Bool,
    (BitVec.ofBool l ++ (BitVec.ofBool g ++ BitVec.ofBool e)).getLsbD 0 = e ∧
      (BitVec.ofBool l ++ (BitVec.ofBool g ++ BitVec.ofBool e)).getLsbD 1 = g ∧
      (BitVec.ofBool l ++ (BitVec.ofBool g ++ BitVec.ofBool e)).getLsbD 2 = l := by decide

theorem compareEgl_getLsbD (x y : Byte) :
    (compareEgl x y).getLsbD 0 = decide (x.toNat = y.toNat) ∧
      (compareEgl x y).getLsbD 1 = decide (x.toNat > y.toNat) ∧
      (compareEgl x y).getLsbD 2 = decide (x.toNat < y.toNat) :=
  getLsbD_ofBool_append _ _ _

/-- Settles O39: CMP's handler case writes FL from the ALU's compare bits. -/
theorem cmpWritesEqualGreaterLess : Obligations.CmpWritesEqualGreaterLess := by
  intro s a b i j hi hj
  obtain ⟨he, hg, hl⟩ := compareEgl_getLsbD s.regs[i] s.regs[j]
  refine ⟨writeEgl s.fl (compareEgl s.regs[i] s.regs[j]), ?_, ?_, ?_, ?_, writeEgl_ushiftRight _ _⟩
  · rw [exec_of_next (.cmp hi hj)]
    rfl
  · rw [writeEgl_getLsbD _ _ (by decide), he]
  · rw [writeEgl_getLsbD _ _ (by decide), hg]
  · rw [writeEgl_getLsbD _ _ (by decide), hl]

/-- Settles O45: PRN's handler case emits the register's byte. -/
theorem prnEmitsTheRegisterByte : Obligations.PrnEmitsTheRegisterByte :=
  fun _ _ _ hi => exec_of_next (.prn hi)

/-- Settles O48: HLT's handler case is the clean halt after phase 5. -/
theorem hltHaltsCleanly : Obligations.HltHaltsCleanly := by
  intro s
  rw [exec_of_handlerCase .hlt, complete_halt, advancePc_eq]
  rfl

theorem getElem_set_of_ne (regs : Vector Byte 8) (v : Byte) {i k : Fin 8} (h : k ≠ i) :
    (regs.set i v)[k] = regs[k] :=
  Vector.getElem_set_ne i.isLt k.isLt fun hik => h (Fin.ext hik.symm)

theorem pushAddr_eq (s : State) : pushAddr s = s.regs[7] - 1 := aluDec_eq _

/-- PUSH reads its operand after the decrement (43_stack.md R122). -/
theorem pushValue_eq (i : Fin 8) (s : State) :
    pushValue i s = if i = 7 then s.regs[7] - 1 else s.regs[i] := by
  simp only [pushValue, pushDecrement, pushAddr_eq, State.reg_eq, State.setReg_regs, Config.spIndex]
  split_ifs with h
  · subst h
    exact Vector.getElem_set_self _
  · exact getElem_set_of_ne _ _ h

/-- POP increments what its first statement leaves in register 7 (43_stack.md R124). -/
theorem popLoad_sp (i : Fin 8) (s : State) :
    (popLoad i s).reg Config.spIndex = if i = 7 then Memory.read s.mem s.regs[7] else s.regs[7] := by
  simp only [popLoad, State.reg_eq, State.setReg_regs, State.memRead_eq, Config.spIndex]
  split_ifs with h
  · subst h
    exact Vector.getElem_set_self _
  · exact getElem_set_of_ne _ _ (Ne.symm h)

theorem exec_push {a : Byte} {i : Fin 8} (hi : a.toNat = i.val) (s : State) :
    exec (.push a) s = .next { s with
      regs := s.regs.set 7 (s.regs[7] - 1),
      mem := Memory.write s.mem (s.regs[7] - 1) (if i = 7 then s.regs[7] - 1 else s.regs[i]),
      pc := s.pc + ((s.ir >>> 6) + 1) } := by
  rw [exec_of_next (.push hi), ← pushValue_eq, ← pushAddr_eq]
  rfl

theorem exec_pop {a : Byte} {i : Fin 8} (hi : a.toNat = i.val) (s : State) :
    exec (.pop a) s = .next { s with
      regs := (s.regs.set i (Memory.read s.mem s.regs[7])).set 7
        ((if i = 7 then Memory.read s.mem s.regs[7] else s.regs[7]) + 1),
      pc := s.pc + ((s.ir >>> 6) + 1) } := by
  rw [exec_of_next (.pop hi), ← popLoad_sp, ← aluInc_eq]
  rfl

/-- Settles O42: `exec_push` for a register that the decrement leaves. -/
theorem pushDecrementsSpThenStores : Obligations.PushDecrementsSpThenStores := by
  intro s a i hi hne
  rw [exec_push hi, if_neg hne]

/-- Settles O43: `exec_pop` for a destination that leaves SP. -/
theorem popLoadsThenIncrementsSp : Obligations.PopLoadsThenIncrementsSp := by
  intro s a i hi hne
  rw [exec_pop hi, if_neg hne]

/-- Settles O44: `exec_push` and `exec_pop` for register 7, where POP's second write covers its first. -/
theorem pushAndPopOfTheStackPointer : Obligations.PushAndPopOfTheStackPointer := by
  have h7 : (7 : Byte).toNat = (7 : Fin 8).val := rfl
  refine fun s => ⟨exec_push h7 s, ?_⟩
  rw [exec_pop h7, if_pos rfl]
  simp

/-- Settles O58: POP reads the cell that PUSH has just written, and its increment undoes the decrement. -/
theorem pushThenPopRestores : Obligations.PushThenPopRestores := by
  intro s a b i j hi hj hi7 hj7
  have hsp : 7 ≠ j.val := fun h => hj7 (Fin.ext h.symm)
  refine ⟨_, _, pushDecrementsSpThenStores s a i hi hi7, popLoadsThenIncrementsSp _ b j hj hj7, ?_, ?_, ?_,
    fun k hk => ?_⟩
  · simp
  · simp [hsp, Memory.read_write_same]
  · simp
  · have hkj : j.val ≠ k.val := fun h => hk (Fin.ext h.symm)
    by_cases hk7 : 7 = k.val
    · simp [hk7]
    · simp [hkj, hk7]

end Sys2Proof.Machine
end

section
/-! SUPPORT. Frames: what each group of instructions leaves as it was, faults included, and which instruction
alone changes FL or memory (10_state.md R16; 20_memory.md R34; 60_exceptions.md section 2). -/

namespace Sys2Proof.Machine

/-- The instructions that write register `a` do that and nothing else, or take one of their faults. -/
theorem HandlerCase.setReg_or_fault {a b : Byte} {i : Instr} {s : State} {r : HandlerOutcome}
    (hmem : i ∈ [Instr.ldi a b, .add a b, .sub a b, .mul a b, .div a b, .inc a, .dec a])
    (h : HandlerCase s i r) :
    (∃ (k : Fin 8) (v : Byte), k.val = a.toNat ∧ r = .next (s.setReg k v)) ∨
      (r = .fault .regIndexFault ∧ ∃ x ∈ i.regOperands, 7 < x.toNat) ∨
      (r = .fault .divisionByZero ∧ DividesByZero i s) := by
  have hdest : i.regOperands.head? = some a := by
    simp only [List.mem_cons, List.not_mem_nil, or_false] at hmem
    rcases hmem with rfl | rfl | rfl | rfl | rfl | rfl | rfl <;> rfl
  cases h with
  | ldi hi | inc hi | dec hi | add hi _ | sub hi _ | mul hi _ | div hi _ _ =>
    cases hdest
    exact .inl ⟨_, _, hi.symm, rfl⟩
  | badReg hbad => exact .inr (.inl ⟨rfl, hbad⟩)
  | divZero _ hj hq => exact .inr (.inr ⟨rfl, _, _, _, rfl, hj, aluDiv_eq_none.mp hq⟩)
  | _ => simp at hmem

/-- Settles O49: one register is written, or a fault is raised in the state as it was. -/
theorem registerWritersFrame : Obligations.RegisterWritersFrame := by
  intro a b i hmem s t hexec
  obtain ⟨r, hcase, hnext⟩ := exec_cases i s
  cases hnext.symm.trans hexec
  rcases hcase.setReg_or_fault hmem with ⟨k, v, hk, rfl⟩ | ⟨rfl, hbad⟩ | ⟨rfl, hdiv⟩
  · refine ⟨fun l hl => ?_, rfl, rfl, rfl, fun _ => rfl, .inl ⟨rfl, rfl, rfl⟩⟩
    exact getElem_set_of_ne _ _ fun h => hl (h ▸ hk)
  · exact ⟨fun _ _ => rfl, rfl, rfl, rfl, fun _ => rfl, .inr ⟨rfl, .inl ⟨rfl, hbad⟩⟩⟩
  · exact ⟨fun _ _ => rfl, rfl, rfl, rfl, fun _ => rfl, .inr ⟨rfl, .inr ⟨rfl, hdiv⟩⟩⟩

/-- Settles O50: CMP's two handler cases. -/
theorem cmpFrame : Obligations.CmpFrame := by
  intro a b s t hexec
  obtain ⟨r, hcase, hnext⟩ := exec_cases (.cmp a b) s
  cases hnext.symm.trans hexec
  cases hcase with
  | cmp _ _ => exact ⟨rfl, writeEgl_ushiftRight _ _, rfl, rfl, fun _ => rfl, .inl ⟨rfl, rfl, rfl⟩⟩
  | badReg hbad =>
    exact ⟨rfl, rfl, rfl, rfl, fun _ => rfl, .inr ⟨rfl, by simpa [Instr.regOperands] using hbad⟩⟩

/-- Settles O51: PUSH's two handler cases. -/
theorem pushFrame : Obligations.PushFrame := by
  intro a s t hexec
  obtain ⟨r, hcase, hnext⟩ := exec_cases (.push a) s
  cases hnext.symm.trans hexec
  cases hcase with
  | push _ =>
    refine ⟨fun k hk => ?_, rfl, rfl, rfl, fun addr haddr => ?_, .inl ⟨rfl, rfl, rfl⟩⟩
    · exact getElem_set_of_ne _ _ hk
    · exact Memory.read_write_of_ne _ _ haddr
  | badReg hbad =>
    exact ⟨fun _ _ => rfl, rfl, rfl, rfl, fun _ _ => rfl, .inr ⟨rfl, by simpa [Instr.regOperands] using hbad⟩⟩

/-- Settles O52: POP's two handler cases. -/
theorem popFrame : Obligations.PopFrame := by
  intro a s t hexec
  obtain ⟨r, hcase, hnext⟩ := exec_cases (.pop a) s
  cases hnext.symm.trans hexec
  cases hcase with
  | pop hi =>
    refine ⟨fun k hk7 hka => ?_, rfl, rfl, rfl, fun _ => rfl, .inl ⟨rfl, rfl, rfl⟩⟩
    exact (getElem_set_of_ne _ _ hk7).trans (getElem_set_of_ne _ _ fun h => hka (h ▸ hi.symm))
  | badReg hbad =>
    exact ⟨fun _ _ _ => rfl, rfl, rfl, rfl, fun _ => rfl, .inr ⟨rfl, by simpa [Instr.regOperands] using hbad⟩⟩

/-- Settles O53: PRN emits, the branches go on or jump, HLT halts, and a bad operand faults. -/
theorem outputBranchAndHaltFrame : Obligations.OutputBranchAndHaltFrame := by
  intro a i hmem s t hexec
  obtain ⟨r, hcase, hnext⟩ := exec_cases i s
  cases hnext.symm.trans hexec
  cases hcase with
  | prn _ =>
    exact ⟨rfl, rfl, rfl, fun _ => rfl, fun hne => absurd (by simpa using hmem) hne, .inl ⟨rfl, rfl, rfl⟩⟩
  | jmp _ | jeqTaken _ _ | jeqNot _ _ | jneTaken _ _ | jneNot _ _ =>
    exact ⟨rfl, rfl, rfl, fun _ => rfl, fun _ => rfl, .inl ⟨rfl, rfl, rfl⟩⟩
  | hlt => exact ⟨rfl, rfl, rfl, fun _ => rfl, fun _ => rfl, .inr (.inl ⟨rfl, rfl, rfl, rfl⟩)⟩
  | badReg hbad => exact ⟨rfl, rfl, rfl, fun _ => rfl, fun _ => rfl, .inr (.inr ⟨rfl, hbad⟩)⟩
  | _ => simp at hmem

theorem HandlerCase.eq_cmp_of_fl_ne {s : State} {i : Instr} {r : HandlerOutcome} (h : HandlerCase s i r)
    (hfl : (complete s r).fl ≠ s.fl) : ∃ a b, i = .cmp a b := by
  cases h with
  | cmp _ _ => exact ⟨_, _, rfl⟩
  | _ => exact absurd rfl hfl

/-- Settles O54: a step that decodes no instruction leaves FL, and so does every handler case but CMP's. -/
theorem onlyCmpChangesFlags : Obligations.OnlyCmpChangesFlags := by
  intro s t _ hstep hchange
  rcases step_cases s with ⟨-, h⟩ | ⟨e, -, -, h⟩ | ⟨i, r, -, hdecode, hcase, h⟩ <;> cases h.symm.trans hstep
  · exact absurd rfl hchange
  · exact absurd rfl hchange
  · obtain ⟨a, b, rfl⟩ := hcase.eq_cmp_of_fl_ne hchange
    exact ⟨a, b, hdecode⟩

theorem HandlerCase.eq_push_of_read_ne {s : State} {i : Instr} {r : HandlerOutcome} {addr : Byte}
    (h : HandlerCase s i r) (hread : Memory.read (complete s r).mem addr ≠ Memory.read s.mem addr) :
    addr = (complete s r).regs[7] ∧ ∃ a, i = .push a := by
  cases h with
  | @push a i hi =>
    refine ⟨?_, a, rfl⟩
    have hsp : (pushReg i s).regs[7] = pushAddr s := Vector.getElem_set_self _
    by_contra hne
    exact hread (Memory.read_write_of_ne _ _ fun h => hne (h.trans hsp.symm))
  | _ => exact absurd rfl hread

/-- Settles O55: a step that decodes no instruction leaves memory, and so does every handler case but PUSH's,
which writes one cell. -/
theorem onlyPushChangesMemory : Obligations.OnlyPushChangesMemory := by
  intro s t addr _ hstep hchange
  rcases step_cases s with ⟨-, h⟩ | ⟨e, -, -, h⟩ | ⟨i, r, -, hdecode, hcase, h⟩ <;> cases h.symm.trans hstep
  · exact absurd rfl hchange
  · exact absurd rfl hchange
  · obtain ⟨haddr, a, rfl⟩ := hcase.eq_push_of_read_ne hchange
    exact ⟨haddr, a, hdecode⟩

end Sys2Proof.Machine
end

section
/-! SUPPORT. The memory port: which access each handler makes, memory as the effect of a step's traffic, and the
fetch that follows a PUSH (20_memory.md R31, R32, R34 and section 7). -/

namespace Sys2Proof.Machine

theorem handlerAccesses_push {a : Byte} {r : Fin 8} (h : a.toNat = r.val) (s : State) :
    handlerAccesses (.push a) s = [.write (pushAddr s) (pushValue r s)] := by
  simp only [handlerAccesses, regIndexOf_of_toNat h]

theorem handlerAccesses_pop {a : Byte} {r : Fin 8} (h : a.toNat = r.val) (s : State) :
    handlerAccesses (.pop a) s = [.read s.regs[7]] := by
  simp only [handlerAccesses, regIndexOf_of_toNat h]
  rfl

theorem handlerAccesses_of_badReg {i : Instr} (h : ∃ r ∈ i.regOperands, 7 < r.toNat) (s : State) :
    handlerAccesses i s = [] := by
  cases i with
  | push a | pop a =>
    have ha : 7 < a.toNat := by simpa [Instr.regOperands] using h
    simp only [handlerAccesses, regIndexOf_of_gt ha]
  | _ => rfl

theorem handlerAccesses_of_ne {i : Instr} (h : ∀ a, i ≠ .push a ∧ i ≠ .pop a) (s : State) :
    handlerAccesses i s = [] := by
  cases i with
  | push a => exact absurd rfl (h a).1
  | pop a => exact absurd rfl (h a).2
  | _ => rfl

theorem handlerAccesses_length_le_one (i : Instr) (s : State) : (handlerAccesses i s).length ≤ 1 := by
  cases i with
  | push a | pop a =>
    rcases regIndexOf_cases a with ⟨r, -, h⟩ | ⟨-, h⟩ <;> simp [handlerAccesses, h]
  | _ => exact Nat.zero_le 1

theorem HandlerCase.applyAccesses_eq {s : State} {i : Instr} {r : HandlerOutcome} (h : HandlerCase s i r) :
    applyAccesses (handlerAccesses i s) s.mem = (complete s r).mem := by
  cases h with
  | push hi =>
    rw [handlerAccesses_push hi]
    rfl
  | pop hi =>
    rw [handlerAccesses_pop hi]
    rfl
  | badReg hbad =>
    rw [handlerAccesses_of_badReg hbad]
    rfl
  | _ => rfl

/-- The fetches are reads, so memory after a step is the handler's access applied. -/
theorem mem_eq_applyAccesses_of_step {s t : State} (hstep : step s = .next t) :
    t.mem = applyAccesses (stepAccesses s) s.mem := by
  rcases step_cases s with ⟨hrun, h⟩ | ⟨e, hrun, hdecode, h⟩ | ⟨i, r, hrun, hdecode, hcase, h⟩ <;>
    cases h.symm.trans hstep
  · rw [stepAccesses_of_halted hrun]
    rfl
  · rw [stepAccesses_of_error hrun hdecode]
    rfl
  · rw [stepAccesses_of_ok hrun hdecode]
    exact hcase.applyAccesses_eq.symm

/-- Settles O32: the traffic of an accepted step is the three fetches and then the handler's own, instruction by
instruction. -/
theorem stepAccessesAreTheFetchesAndAtMostOneMore : Obligations.StepAccessesAreTheFetchesAndAtMostOneMore := by
  refine fun s t hstep => ⟨mem_eq_applyAccesses_of_step hstep, fun i hrun hdecode => ?_⟩
  refine ⟨_, stepAccesses_of_ok hrun hdecode, handlerAccesses_length_le_one _ _, ?_, ?_, ?_, ?_⟩
  · rintro a r rfl hr
    exact ⟨handlerAccesses_push hr _, pushAddr_eq _, pushValue_eq _ _⟩
  · rintro a r rfl hr
    exact handlerAccesses_pop hr _
  · rintro a (rfl | rfl) ha <;> exact handlerAccesses_of_badReg ⟨a, by simp [Instr.regOperands], ha⟩ _
  · exact fun hne => handlerAccesses_of_ne hne _

/-- Settles O33: the next step loads IR from PC, the cell that PUSH has just written. -/
theorem pushedByteIsFetchedByTheNextStep : Obligations.PushedByteIsFetchedByTheNextStep := by
  intro s t a i hi hrun hexec hpc
  obtain ⟨-, hfetch⟩ := everyStepLoadsIrFromPc
  cases (exec_of_handlerCase (.push hi)).symm.trans hexec
  obtain ⟨u, hstep, hir⟩ := hfetch (advancePc (pushReg i s)) hrun
  refine ⟨u, hstep, ?_⟩
  rw [complete_next] at hpc
  rw [hir, hpc]
  exact Memory.read_write_same _ _ _

end Sys2Proof.Machine
end

section
/-! SUPPORT. The loader cell by cell, and what each driver request is admitted to and does
(70_reset_and_hazards.md R182 to R184; 40_step_cycle.md R85, R86). -/

namespace Sys2Proof.Machine

/-- An image of at most 256 bytes lies in file order from `addr` modulo 256. -/
theorem Memory.read_place (m : Memory) (addr : Byte) {image : List Byte} (hlen : image.length ≤ Config.memSize)
    {k : Nat} {v : Byte} (hk : image[k]? = some v) :
    Memory.read (Memory.place m addr image) (addr + BitVec.ofNat 8 k) = v := by
  induction image generalizing m addr k with
  | nil => cases hk
  | cons w rest ih =>
    cases k with
    | zero =>
      cases hk
      rw [BitVec.add_zero, Memory.read_place_head m addr _ hlen]
    | succ k =>
      have hnext : addr + BitVec.ofNat 8 (k + 1) = addr + 1 + BitVec.ofNat 8 k := by
        rw [BitVec.ofNat_add, BitVec.add_comm (BitVec.ofNat 8 k), BitVec.add_assoc]
        rfl
      rw [hnext, Memory.place, aluAdd_eq]
      exact ih _ _ (Nat.le_of_succ_le hlen) hk

theorem loadImage_of_length_le {image : List Byte} (h : image.length ≤ 256) (s : State) :
    loadImage image s = some { s with mem := Memory.place [] Config.loadOrigin image } :=
  if_pos h

theorem loadImage_of_lt_length {image : List Byte} (h : 256 < image.length) (s : State) :
    loadImage image s = none :=
  if_neg (Nat.not_le.mpr h)

/-- Settles O25: the loader places the image at address 0 over a memory that nothing has written. -/
theorem loaderPlacesTheImageFromAddressZero : Obligations.LoaderPlacesTheImageFromAddressZero := by
  refine fun image s => ⟨fun hlen => ?_, fun hlen => loadImage_of_lt_length hlen s⟩
  refine ⟨_, loadImage_of_length_le hlen s, rfl, fun k v hk => ?_, fun addr haddr => ?_⟩
  · simpa [Config.loadOrigin] using Memory.read_place [] Config.loadOrigin hlen hk
  · exact Memory.read_place_of_length_le [] (by simpa [Config.loadOrigin] using haddr)

/-- Settles O26: a load leaves the run state, and a step while Halted leaves everything. -/
theorem onlyResetLeavesHalted : Obligations.OnlyResetLeavesHalted := by
  refine fun d hhalted => ⟨⟨_, rfl, applyReset_run _⟩, fun r e hdrive hrun => ?_⟩
  rcases drive_cases hdrive with ⟨hr, -⟩ | ⟨image, t, -, -, hload, rfl⟩ | ⟨t, -, hstep, rfl⟩
  · exact hr
  · obtain ⟨-, rfl⟩ := loadImage_eq_some.mp hload
    cases hhalted.symm.trans hrun
  · cases (step_of_halted hhalted).symm.trans hstep
    cases hhalted.symm.trans hrun

theorem drive_load_of_inRun {d : Session} (h : inRun d = true) (image : List Byte) :
    drive (.load image) d = none := if_pos h

/-- Outside a run a load is admitted when the loader accepts the image. -/
theorem drive_load_of_not_inRun {d : Session} (h : inRun d = false) (image : List Byte) :
    drive (.load image) d = (loadImage image d.core).map fun t => .next { d with core := t } := by
  simp only [drive, h]
  cases loadImage image d.core <;> rfl

/-- Settles O27: a step request is `driveStep`, and a load is admitted by `inRun` and the loader. -/
theorem driverRequestsFollowTheContract : Obligations.DriverRequestsFollowTheContract := by
  intro d
  refine ⟨rfl, fun hrun => ?_, fun hrun => ?_, fun image hstarted hrun => ?_, fun image hlen => ?_,
    fun image hidle hlen => ?_⟩
  · obtain ⟨t, hstep⟩ := step_answers d.core
    exact ⟨t, hstep, by simp [drive, driveStep_of_next hstep, hrun]⟩
  · simp [drive, driveStep_of_next (step_of_halted hrun), hrun]
  · exact drive_load_of_inRun (inRun_eq_true.mpr ⟨hstarted, hrun⟩) image
  · cases h : inRun d with
    | true => exact drive_load_of_inRun h image
    | false =>
      rw [drive_load_of_not_inRun h, loadImage_of_lt_length hlen]
      rfl
  · have h : inRun d = false := by rcases hidle with h | h <;> simp [inRun, h]
    refine ⟨_, loadImage_of_length_le hlen d.core, ?_⟩
    rw [drive_load_of_not_inRun h, loadImage_of_length_le hlen]
    rfl

/-- Settles O28: reset leaves memory, a load is not admitted during a run, and a step changes memory only by
PUSH. -/
theorem nothingOutsideWritesMemoryDuringARun : Obligations.NothingOutsideWritesMemoryDuringARun := by
  intro r d e addr hrun hdrive hchange
  rcases drive_cases hdrive with ⟨-, rfl⟩ | ⟨image, t, -, hidle, -, -⟩ | ⟨t, hr, hstep, rfl⟩
  · exact absurd rfl hchange
  · cases hidle.symm.trans hrun
  · obtain ⟨-, hrunning⟩ := inRun_eq_true.mp hrun
    obtain ⟨-, hpush⟩ := onlyPushChangesMemory _ _ addr hrunning hstep hchange
    exact ⟨hr, hpush⟩

end Sys2Proof.Machine
end

section
/-! SUPPORT. What a program cannot observe never matters: states that agree on the rest run the same handler
cases, and a step loads IR anew, so they still agree after it (10_state.md R23). -/

namespace Sys2Proof.Machine

/-- `s` with other values in the fields no program observes, but for IR, which every step loads anew. -/
def State.withHidden (s : State) (fl : Byte) (cause : BitVec 2) (info : Byte) (out : List Byte) : State :=
  { s with fl := fl, cause := cause, info := info, out := out }

theorem SameToProgram.exists_withHidden {s t : State} (h : SameToProgram s t) (hir : s.ir = t.ir) :
    ∃ fl cause info out, flagE s.fl = flagE fl ∧ t = s.withHidden fl cause info out := by
  obtain ⟨hregs, hfl, hmem, hpc, hrun⟩ := h
  refine ⟨t.fl, t.cause, t.info, t.out, hfl, ?_⟩
  exact State.ext_fields hregs.symm hpc.symm hir.symm rfl hrun.symm rfl rfl rfl hmem.symm

theorem flagE_writeEgl (fl : Byte) (egl : BitVec 3) : flagE (writeEgl fl egl) = egl.getLsbD 0 :=
  writeEgl_getLsbD fl egl (by decide)

/-- The same handler case applies: the branches read only E, and CMP writes E without reading FL. -/
theorem HandlerCase.sameToProgram {s t : State} {i : Instr} {r : HandlerOutcome} (h : HandlerCase s i r)
    (hst : SameToProgram s t) (hir : s.ir = t.ir) :
    ∃ r', HandlerCase t i r' ∧ SameToProgram (complete s r) (complete t r') := by
  obtain ⟨fl, cause, info, out, hfl, rfl⟩ := hst.exists_withHidden hir
  cases h with
  | cmp hi hj =>
    exact ⟨_, .cmp hi hj, rfl, (flagE_writeEgl _ _).trans (flagE_writeEgl _ _).symm, rfl, rfl, rfl⟩
  | divZero hi hj hq => exact ⟨_, .divZero hi hj hq, rfl, hfl, rfl, rfl, rfl⟩
  | jeqTaken hi he => exact ⟨_, .jeqTaken hi (hfl.symm.trans he), rfl, hfl, rfl, rfl, rfl⟩
  | jeqNot hi he => exact ⟨_, .jeqNot hi (hfl.symm.trans he), rfl, hfl, rfl, rfl, rfl⟩
  | jneTaken hi he => exact ⟨_, .jneTaken hi (hfl.symm.trans he), rfl, hfl, rfl, rfl, rfl⟩
  | jneNot hi he => exact ⟨_, .jneNot hi (hfl.symm.trans he), rfl, hfl, rfl, rfl, rfl⟩
  | badReg hbad => exact ⟨_, .badReg hbad, rfl, hfl, rfl, rfl, rfl⟩
  | _ =>
    apply Exists.intro
    apply And.intro
    · constructor <;> assumption
    · exact ⟨rfl, hfl, rfl, rfl, rfl⟩

theorem step_sameToProgram {s t s' : State} (hst : SameToProgram s t) (hstep : step s = .next s') :
    ∃ t', step t = .next t' ∧ SameToProgram s' t' := by
  have ⟨hregs, hfl, hmem, hpc, hrun⟩ := hst
  rcases step_cases s with ⟨hhalted, h⟩ | ⟨e, hrunning, hdecode, h⟩ | ⟨i, r, hrunning, hdecode, hcase, h⟩ <;>
    cases h.symm.trans hstep
  · exact ⟨t, step_of_halted (hrun.symm.trans hhalted), hst⟩
  · rw [hmem, hpc] at hdecode
    exact ⟨_, step_of_error (hrun.symm.trans hrunning) hdecode, hregs, hfl, hmem, hpc, rfl⟩
  · rw [hmem, hpc] at hdecode
    have hir : (fetchOpcode s).ir = (fetchOpcode t).ir := by
      rw [fetchOpcode_ir, fetchOpcode_ir, hmem, hpc]
    obtain ⟨r', hcase', hsame⟩ := hcase.sameToProgram (t := fetchOpcode t) hst hir
    exact ⟨_, (step_of_ok (hrun.symm.trans hrunning) hdecode).trans (exec_of_handlerCase hcase'), hsame⟩

/-- Settles O57, by induction on the number of steps. -/
theorem unobservableStateNeverMatters : Obligations.UnobservableStateNeverMatters := by
  intro n
  induction n with
  | zero =>
    intro s t s' hst hrun
    cases hrun
    exact ⟨t, run_zero t, hst⟩
  | succ n ih =>
    intro s t s' hst hrun
    obtain ⟨u, hu⟩ := step_answers s
    obtain ⟨v, hv, huv⟩ := step_sameToProgram hst hu
    rw [run_succ_of_next hu] at hrun
    rw [run_succ_of_next hv]
    exact ih u v s' huv hrun

end Sys2Proof.Machine
end

section
/-! SUPPORT. A word placed where the next step fetches is read back by the three fetches
(notes/assumptions/2.md). -/

namespace Sys2Proof.Machine

theorem decode_of_decodeTableWord {nbits w : Nat} {i : Instr} (h : decodeTableWord nbits w = some i) :
    decode (tableByte 0 (w % 2 ^ nbits)) (tableByte 1 (w % 2 ^ nbits)) (tableByte 2 (w % 2 ^ nbits)) = .ok i := by
  simp only [decodeTableWord] at h
  split at h <;> cases h
  assumption

@[simp] theorem State.withFetchWord_regs (s : State) (nbits w : Nat) : (s.withFetchWord nbits w).regs = s.regs := by
  simp [State.withFetchWord]
@[simp] theorem State.withFetchWord_pc (s : State) (nbits w : Nat) : (s.withFetchWord nbits w).pc = s.pc := by
  simp [State.withFetchWord]
@[simp] theorem State.withFetchWord_fl (s : State) (nbits w : Nat) : (s.withFetchWord nbits w).fl = s.fl := by
  simp [State.withFetchWord]
@[simp] theorem State.withFetchWord_out (s : State) (nbits w : Nat) : (s.withFetchWord nbits w).out = s.out := by
  simp [State.withFetchWord]
@[simp] theorem State.withFetchWord_run (s : State) (nbits w : Nat) : (s.withFetchWord nbits w).run = .running := by
  simp [State.withFetchWord]

theorem State.withFetchWord_mem (s : State) (nbits w : Nat) : (s.withFetchWord nbits w).mem =
    Memory.write (Memory.write (Memory.write s.mem s.pc (tableByte 0 (w % 2 ^ nbits))) (s.pc + 1)
      (tableByte 1 (w % 2 ^ nbits))) (s.pc + 2) (tableByte 2 (w % 2 ^ nbits)) := by
  simp only [State.withFetchWord, State.memWrite_mem, aluAdd_eq]

/-- The three addresses differ modulo 256, so no placed byte covers another. -/
theorem State.read_withFetchWord (s : State) (nbits w : Nat) :
    Memory.read (s.withFetchWord nbits w).mem s.pc = tableByte 0 (w % 2 ^ nbits) ∧
    Memory.read (s.withFetchWord nbits w).mem (s.pc + 1) = tableByte 1 (w % 2 ^ nbits) ∧
    Memory.read (s.withFetchWord nbits w).mem (s.pc + 2) = tableByte 2 (w % 2 ^ nbits) := by
  have h01 : s.pc ≠ s.pc + 1 := by bv_omega
  have h02 : s.pc ≠ s.pc + 2 := by bv_omega
  have h12 : s.pc + 1 ≠ s.pc + 2 := by bv_omega
  rw [State.withFetchWord_mem]
  refine ⟨?_, ?_, Memory.read_write_same _ _ _⟩
  · rw [Memory.read_write_of_ne _ _ h02, Memory.read_write_of_ne _ _ h01, Memory.read_write_same]
  · rw [Memory.read_write_of_ne _ _ h12, Memory.read_write_same]

/-- Settles O6: the step fetches the word's three bytes, which the table's decoder decodes. -/
theorem placedTableWordRunsNext : Obligations.PlacedTableWordRunsNext := by
  intro s nbits w i hword
  refine ⟨?_, by simp⟩
  have hdecode := decode_of_decodeTableWord hword
  obtain ⟨hop, ha, hb⟩ := s.read_withFetchWord nbits w
  rw [← hop, ← ha, ← hb, ← s.withFetchWord_pc nbits w] at hdecode
  rw [step_of_ok (s.withFetchWord_run nbits w) hdecode, fetchOpcode_eq, decode_opcode hdecode]

end Sys2Proof.Machine
end

section
/-! SUPPORT. A sequence of at most 256 PUSHes writes downwards from SP without reaching a cell twice
(43_stack.md, SP wrap-around). -/

namespace Sys2Proof.Machine

theorem execAll_cons_of_next {i : Instr} {rest : List Instr} {s t : State} (h : exec i s = .next t) :
    execAll (i :: rest) s = execAll rest t := by
  simp only [execAll, h]

theorem sub_ofNat_succ (x : Byte) (k : Nat) : x - BitVec.ofNat 8 (k + 1) = x - 1 - BitVec.ofNat 8 k := by
  rw [sub_sub, BitVec.ofNat_add, BitVec.add_comm]
  rfl

/-- Going down from just below `x`, `x` itself comes last. -/
theorem le_toNat_sub_one_sub_self {n : Nat} (h : n < 256) (x : Byte) : n ≤ (x - 1 - x).toNat := by
  bv_omega

/-- An address at least `n + 1` below `x` is not `x`, and at least `n` below the address under `x`. -/
theorem le_toNat_sub_of_succ_le {n : Nat} {x a : Byte} (h : n + 1 ≤ (x - a).toNat) :
    n ≤ (x - 1 - a).toNat ∧ a ≠ x := by
  constructor <;> bv_omega

/-- What PUSHes of the registers that the bytes `ops` name leave of state `s` in state `t`. -/
structure Pushed (ops : List Byte) (s t : State) : Prop where
  /-- SP has gone down once for each. -/
  sp : t.regs[7] = s.regs[7] - BitVec.ofNat 8 ops.length
  /-- Cells below the last one written are as before. -/
  frame : ∀ addr : Byte, ops.length ≤ (s.regs[7] - 1 - addr).toNat →
    Memory.read t.mem addr = Memory.read s.mem addr
  /-- The cell of the `k`-th PUSH holds its register, or for register 7 the cell's own address. -/
  cells : ∀ (k : Nat) (r : Byte) (j : Fin 8), ops[k]? = some r → r.toNat = j.val →
    Memory.read t.mem (s.regs[7] - 1 - BitVec.ofNat 8 k) =
      if j = 7 then s.regs[7] - 1 - BitVec.ofNat 8 k else s.regs[j]

theorem Pushed.nil (s : State) : Pushed [] s s where
  sp := by simp
  frame := fun _ _ => rfl
  cells := fun _ _ _ h => nomatch h

theorem Pushed.cons {r : Byte} {ops : List Byte} {i : Fin 8} {s t : State} (hr : r.toNat = i.val)
    (hlen : (r :: ops).length ≤ 256) (h : Pushed ops (advancePc (pushReg i s)) t) : Pushed (r :: ops) s t := by
  have hsp : (advancePc (pushReg i s)).regs[7] = s.regs[7] - 1 :=
    (Vector.getElem_set_self _).trans (pushAddr_eq s)
  have hstored : (advancePc (pushReg i s)).mem =
      Memory.write s.mem (s.regs[7] - 1) (if i = 7 then s.regs[7] - 1 else s.regs[i]) := by
    rw [advancePc_mem, pushReg_mem, pushAddr_eq, pushValue_eq]
  have hframe (addr : Byte) (haddr : ops.length ≤ (s.regs[7] - 1 - 1 - addr).toNat) :
      Memory.read t.mem addr = Memory.read (advancePc (pushReg i s)).mem addr :=
    h.frame addr (by rwa [hsp])
  refine ⟨?_, fun addr haddr => ?_, fun k x j hk hx => ?_⟩
  · rw [h.sp, hsp, List.length_cons, sub_ofNat_succ]
  · obtain ⟨hrest, hne⟩ := le_toNat_sub_of_succ_le haddr
    rw [hframe addr hrest, hstored, Memory.read_write_of_ne _ _ hne]
  · cases k with
    | zero =>
      cases hk
      obtain rfl : i = j := Fin.ext (hr.symm.trans hx)
      have hlast := le_toNat_sub_one_sub_self (Nat.lt_of_succ_le hlen) (s.regs[7] - 1)
      rw [BitVec.sub_zero, hframe _ hlast, hstored, Memory.read_write_same]
    | succ k =>
      rw [sub_ofNat_succ, ← hsp, h.cells k x j hk hx]
      split_ifs with hj
      · rfl
      · exact getElem_set_of_ne _ _ hj

theorem execAll_push {ops : List Byte} (hlen : ops.length ≤ 256) (hreg : ∀ r ∈ ops, r.toNat ≤ 7) (s : State) :
    ∃ t, execAll (ops.map Instr.push) s = .next t ∧ Pushed ops s t := by
  induction ops generalizing s with
  | nil => exact ⟨s, rfl, Pushed.nil s⟩
  | cons r ops ih =>
    obtain ⟨hr, hops⟩ := List.forall_mem_cons.mp hreg
    have hi : r.toNat = (⟨r.toNat, by omega⟩ : Fin 8).val := rfl
    obtain ⟨t, hexec, hpushed⟩ := ih (Nat.le_of_succ_le hlen) hops (advancePc (pushReg _ s))
    refine ⟨t, ?_, hpushed.cons hi hlen⟩
    rw [List.map_cons, execAll_cons_of_next (exec_of_handlerCase (.push hi)), complete_next, hexec]

/-- Settles O59: PUSH and POP at either end are `exec_push` and `exec_pop`, and 256 PUSHes are `execAll_push`,
with SP down by 256. -/
theorem stackPointerWrapsAndFillsMemory : Obligations.StackPointerWrapsAndFillsMemory := by
  refine ⟨fun s a i hi hsp => ?_, fun s a i hi hsp => ?_, fun s ops hlen hreg => ?_⟩
  · refine ⟨_, exec_push hi s, rfl, rfl, ?_, ?_⟩
    · simp [hsp]
    · simp [hsp, Memory.read_write_same]
  · refine ⟨_, exec_pop hi s, rfl, rfl, fun hne => ⟨?_, ?_⟩, ?_⟩
    · simp [hsp, hne]
    · have hi7 : 7 ≠ i.val := fun h => hne (Fin.ext h.symm)
      simp [hsp, hi7]
    · rintro rfl
      simp [hsp]
  · obtain ⟨t, hexec, hpushed⟩ := execAll_push hlen.le hreg s
    refine ⟨t, hexec, ?_, hpushed.cells⟩
    rw [hpushed.sp, hlen]
    exact BitVec.sub_zero _

end Sys2Proof.Machine
end
